-- ==== Sys2Proof/Word.lean ====
section
/-! DEFINITION. The word types of the core and the index types of its operands (00_scope.md R8, 30_encoding.md R61). -/

namespace Sys2Proof

/-- An 8-bit value: a general register, a timer, a memory byte (R11, R27, R31). -/
abbrev Byte := BitVec 8

/-- A 16-bit value: an instruction word, I, pc, a stack slot (R16, R18, R23, R60). -/
abbrev Word := BitVec 16

/-- The 12-bit address operand NNN (R61). -/
abbrev Addr12 := BitVec 12

/-- A register index X or Y, 0..15 (R61). -/
abbrev RegIdx := Fin 16

/-- The 4-bit count N of DXYN, 0..15 (R61). -/
abbrev Count := Fin 16

end Sys2Proof
end

