-- ==== Sys2Proof/Config.lean ====
section
/-! DEFINITION. What the source leaves to the implementation: the parameters of 00_scope.md R8, and the free value of CXNN.
The parameters are plain data, held in the machine's state and written by nothing, so that a statement about every state is a
statement for every value of every parameter (log 1). -/

namespace Sys2Proof

/-- SUB_VF_POLARITY (42_alu.md R112, D3). -/
inductive SubPolarity where
  | notBorrow
  | borrow
  deriving DecidableEq, Repr

/-- SHIFT_SOURCE (42_alu.md R113, D4). -/
inductive ShiftSource where
  | vx
  | vy
  deriving DecidableEq, Repr

/-- LOADSTORE_I_INCREMENT (46_f_family.md R166, R167, D8): `unchanged` is the spec's `None`. -/
inductive IndexIncrement where
  | unchanged
  | xPlus1
  deriving DecidableEq, Repr

/-- JUMP_OFFSET_REG (40_control.md R87, D2): with `absent` the form BNNN does not exist. -/
inductive JumpOffsetReg where
  | v0
  | vx
  | absent
  deriving DecidableEq, Repr

/-- The decided parameters of 00_scope.md R8. STEPS_PER_TICK is the driver's and is an argument of `hostFrame`. -/
structure Config where
  subPolarity    : SubPolarity
  shiftSource    : ShiftSource
  logicResetsVF  : Bool
  indexIncrement : IndexIncrement
  jumpOffsetReg  : JumpOffsetReg
  font           : Vector Byte 80
  deriving DecidableEq, Repr

/-- The random source of CXNN, an oracle outside the core state (43_index_random.md R132): the byte of the n-th draw.
It has no body, so that nothing can be proved of its value (log 9). -/
opaque Config.randomByte : Nat → Byte

end Sys2Proof
end

