-- ==== Sys2Proof/Syntax.lean ====
section
/-! DEFINITION. The instruction set: one constructor per row of 30_encoding.md R67, in the table's order.
Operands are the fields of R61, each of its own width, so that no operand can be out of range. -/

namespace Sys2Proof

/-- One instruction. The X of BNNN (read only if JUMP_OFFSET_REG = VX, R87) is the high nibble of its NNN. -/
inductive Instr where
  /-- 0000 NOP (R82) -/
  | nop
  /-- 00E0 CLS (R83) -/
  | cls
  /-- 00EE RET (R84) -/
  | ret
  /-- 1NNN JP NNN (R85) -/
  | jp (nnn : Addr12)
  /-- 2NNN CALL NNN (R86) -/
  | call (nnn : Addr12)
  /-- 3XNN SE VX, NN (R101) -/
  | seVxNn (x : RegIdx) (nn : Byte)
  /-- 4XNN SNE VX, NN (R102) -/
  | sneVxNn (x : RegIdx) (nn : Byte)
  /-- 5XY0 SE VX, VY (R103) -/
  | seVxVy (x y : RegIdx)
  /-- 6XNN LD VX, NN (R115) -/
  | ldVxNn (x : RegIdx) (nn : Byte)
  /-- 7XNN ADD VX, NN (R116) -/
  | addVxNn (x : RegIdx) (nn : Byte)
  /-- 8XY0 LD VX, VY (R117) -/
  | ldVxVy (x y : RegIdx)
  /-- 8XY1 OR VX, VY (R118) -/
  | orVxVy (x y : RegIdx)
  /-- 8XY2 AND VX, VY (R119) -/
  | andVxVy (x y : RegIdx)
  /-- 8XY3 XOR VX, VY (R120) -/
  | xorVxVy (x y : RegIdx)
  /-- 8XY4 ADD VX, VY (R121) -/
  | addVxVy (x y : RegIdx)
  /-- 8XY5 SUB VX, VY (R122) -/
  | subVxVy (x y : RegIdx)
  /-- 8XY6 SHR VX, VY (R123) -/
  | shrVxVy (x y : RegIdx)
  /-- 8XY7 SUBN VX, VY (R124) -/
  | subnVxVy (x y : RegIdx)
  /-- 8XYE SHL VX, VY (R125) -/
  | shlVxVy (x y : RegIdx)
  /-- 9XY0 SNE VX, VY (R104) -/
  | sneVxVy (x y : RegIdx)
  /-- ANNN LD I, NNN (R130) -/
  | ldINnn (nnn : Addr12)
  /-- BNNN JP V0, NNN (R87) -/
  | jpV0Nnn (nnn : Addr12)
  /-- CXNN RND VX, NN (R133) -/
  | rndVxNn (x : RegIdx) (nn : Byte)
  /-- DXYN DRW VX, VY, N (R141) -/
  | drwVxVyN (x y : RegIdx) (n : Count)
  /-- EX9E SKP VX (R151) -/
  | skpVx (x : RegIdx)
  /-- EXA1 SKNP VX (R152) -/
  | sknpVx (x : RegIdx)
  /-- FX07 LD VX, DT (R160) -/
  | ldVxDt (x : RegIdx)
  /-- FX0A LD VX, K (R161) -/
  | ldVxK (x : RegIdx)
  /-- FX15 LD DT, VX (R162) -/
  | ldDtVx (x : RegIdx)
  /-- FX18 LD ST, VX (R163) -/
  | ldStVx (x : RegIdx)
  /-- FX1E ADD I, VX (R131) -/
  | addIVx (x : RegIdx)
  /-- FX29 LD F, VX (R164) -/
  | ldFVx (x : RegIdx)
  /-- FX33 LD B, VX (R165) -/
  | ldBVx (x : RegIdx)
  /-- FX55 LD [I], VX (R166) -/
  | ldMemVx (x : RegIdx)
  /-- FX65 LD VX, [I] (R167) -/
  | ldVxMem (x : RegIdx)
  deriving DecidableEq, Repr

end Sys2Proof
end

