-- ==== Sys2Proof/Decode.lean ====
section
/-! DEFINITION. The decoder of 30_encoding.md (R61 to R65, R67), total on words and on bytes, and after it the encoder, written
from the formats of R63, and the opcode table of R67 as data. The bit patterns are the spec's own supply (D31, log 8). -/

namespace Sys2Proof

/-! The fields of a word (R61). -/

/-- `F = w[15:12]`, the family. -/
def fieldFamily (w : Word) : BitVec 4 := w.extractLsb' 12 4
/-- `X = w[11:8]`. -/
def fieldX (w : Word) : RegIdx := (w.extractLsb' 8 4).toFin
/-- `Y = w[7:4]`. -/
def fieldY (w : Word) : RegIdx := (w.extractLsb' 4 4).toFin
/-- `N = w[3:0]`. -/
def fieldN (w : Word) : Count := (w.extractLsb' 0 4).toFin
/-- `NN = w[7:0]`. -/
def fieldNN (w : Word) : Byte := w.extractLsb' 0 8
/-- `NNN = w[11:0]`. -/
def fieldNNN (w : Word) : Addr12 := w.extractLsb' 0 12

/-- What decode answers for a word: an instruction or `Unknown(w)` (R64). -/
inductive Decoded where
  | instr (i : Instr)
  | unknown (w : Word)
  deriving DecidableEq, Repr

/-- The 0 family: exactly 0000, 00E0 and 00EE are instructions (R65). -/
def decode0 (w : Word) : Decoded :=
  if w = 0x0000 then .instr .nop
  else if w = 0x00E0 then .instr .cls
  else if w = 0x00EE then .instr .ret
  else .unknown w

/-- The 5 and 9 families: one form each, low nibble 0 (R103, R104). -/
def decodeLow0 (w : Word) (i : Instr) : Decoded :=
  if fieldN w = 0 then .instr i else .unknown w

/-- The 8 family: nine two-register forms by the low nibble (R117 to R125). -/
def decode8 (w : Word) : Decoded :=
  match (fieldN w).val with
  | 0x0 => .instr (.ldVxVy (fieldX w) (fieldY w))
  | 0x1 => .instr (.orVxVy (fieldX w) (fieldY w))
  | 0x2 => .instr (.andVxVy (fieldX w) (fieldY w))
  | 0x3 => .instr (.xorVxVy (fieldX w) (fieldY w))
  | 0x4 => .instr (.addVxVy (fieldX w) (fieldY w))
  | 0x5 => .instr (.subVxVy (fieldX w) (fieldY w))
  | 0x6 => .instr (.shrVxVy (fieldX w) (fieldY w))
  | 0x7 => .instr (.subnVxVy (fieldX w) (fieldY w))
  | 0xE => .instr (.shlVxVy (fieldX w) (fieldY w))
  | _ => .unknown w

/-- The B family: BNNN, or nothing if JUMP_OFFSET_REG = Absent (R64, R87). -/
def decodeB (p : JumpOffsetReg) (w : Word) : Decoded :=
  match p with
  | .absent => .unknown w
  | .v0 => .instr (.jpV0Nnn (fieldNNN w))
  | .vx => .instr (.jpV0Nnn (fieldNNN w))

/-- The E family by the low byte (R151, R152). -/
def decodeE (w : Word) : Decoded :=
  match (fieldNN w).toNat with
  | 0x9E => .instr (.skpVx (fieldX w))
  | 0xA1 => .instr (.sknpVx (fieldX w))
  | _ => .unknown w

/-- The F family by the low byte (R131, R160 to R167). -/
def decodeF (w : Word) : Decoded :=
  match (fieldNN w).toNat with
  | 0x07 => .instr (.ldVxDt (fieldX w))
  | 0x0A => .instr (.ldVxK (fieldX w))
  | 0x15 => .instr (.ldDtVx (fieldX w))
  | 0x18 => .instr (.ldStVx (fieldX w))
  | 0x1E => .instr (.addIVx (fieldX w))
  | 0x29 => .instr (.ldFVx (fieldX w))
  | 0x33 => .instr (.ldBVx (fieldX w))
  | 0x55 => .instr (.ldMemVx (fieldX w))
  | 0x65 => .instr (.ldVxMem (fieldX w))
  | _ => .unknown w

/-- Decode (R64): dispatch on the high nibble and, where needed, on one or more low nibbles. No state other than the fixed
parameter JUMP_OFFSET_REG takes part (R72). The last arm is 0xF: a nibble has no other value. -/
def decode (p : JumpOffsetReg) (w : Word) : Decoded :=
  match (fieldFamily w).toNat with
  | 0x0 => decode0 w
  | 0x1 => .instr (.jp (fieldNNN w))
  | 0x2 => .instr (.call (fieldNNN w))
  | 0x3 => .instr (.seVxNn (fieldX w) (fieldNN w))
  | 0x4 => .instr (.sneVxNn (fieldX w) (fieldNN w))
  | 0x5 => decodeLow0 w (.seVxVy (fieldX w) (fieldY w))
  | 0x6 => .instr (.ldVxNn (fieldX w) (fieldNN w))
  | 0x7 => .instr (.addVxNn (fieldX w) (fieldNN w))
  | 0x8 => decode8 w
  | 0x9 => decodeLow0 w (.sneVxVy (fieldX w) (fieldY w))
  | 0xA => .instr (.ldINnn (fieldNNN w))
  | 0xB => decodeB p w
  | 0xC => .instr (.rndVxNn (fieldX w) (fieldNN w))
  | 0xD => .instr (.drwVxVyN (fieldX w) (fieldY w) (fieldN w))
  | 0xE => decodeE w
  | _ => decodeF w

/-- Two consecutive bytes combined big-endian into a word: the byte at the lower address is bits 15..8 (20_memory.md R44). -/
def wordOfBytes (hi lo : Byte) : Word := hi ++ lo

/-- The two bytes of a word in ascending address order (R44). -/
def bytesOfWord (w : Word) : List Byte := [w.extractLsb' 8 8, w.extractLsb' 0 8]

/-- Decode the instruction at the head of a list of bytes, with the bytes after it; none if fewer than two bytes are left (a
half-fetched word is never executed, R45). -/
def decodeBytes (p : JumpOffsetReg) : List Byte → Option (Decoded × List Byte)
  | hi :: lo :: rest => some (decode p (wordOfBytes hi lo), rest)
  | _ => none

/-- The word made of the low `nbits` bits of `w`, the bits above them 0. -/
def tableWord (nbits w : Nat) : Word := BitVec.ofNat 16 (w % 2 ^ nbits)

/-- The instruction the decoder reads from a table row's bits, laid out as the memory holds them, under the default parameters. -/
def decodeTableWord (nbits w : Nat) : Option Instr :=
  match decodeBytes .v0 (bytesOfWord (tableWord nbits w)) with
  | some (.instr i, _) => some i
  | some (.unknown _, _) => none
  | none => none

/-! The encoder: the formats of R63. -/

/-- Format `addr`, `hNNN`. -/
def encodeAddr (h : BitVec 4) (nnn : Addr12) : Word := h ++ nnn
/-- Format `reg_imm`, `hXNN`; and format `reg`, `hXkk`. -/
def encodeRegImm (h : BitVec 4) (x : RegIdx) (nn : Byte) : Word := h ++ BitVec.ofFin (w := 4) x ++ nn
/-- Format `reg_reg_n`, `hXYN`; and format `reg_reg`, `hXYk`. -/
def encodeRegRegN (h : BitVec 4) (x y : RegIdx) (n : Count) : Word :=
  h ++ BitVec.ofFin (w := 4) x ++ BitVec.ofFin (w := 4) y ++ BitVec.ofFin (w := 4) n

/-- The word of an instruction (R63, R67). -/
def encode : Instr → Word
  | .nop => 0x0000
  | .cls => 0x00E0
  | .ret => 0x00EE
  | .jp nnn => encodeAddr 0x1 nnn
  | .call nnn => encodeAddr 0x2 nnn
  | .seVxNn x nn => encodeRegImm 0x3 x nn
  | .sneVxNn x nn => encodeRegImm 0x4 x nn
  | .seVxVy x y => encodeRegRegN 0x5 x y 0x0
  | .ldVxNn x nn => encodeRegImm 0x6 x nn
  | .addVxNn x nn => encodeRegImm 0x7 x nn
  | .ldVxVy x y => encodeRegRegN 0x8 x y 0x0
  | .orVxVy x y => encodeRegRegN 0x8 x y 0x1
  | .andVxVy x y => encodeRegRegN 0x8 x y 0x2
  | .xorVxVy x y => encodeRegRegN 0x8 x y 0x3
  | .addVxVy x y => encodeRegRegN 0x8 x y 0x4
  | .subVxVy x y => encodeRegRegN 0x8 x y 0x5
  | .shrVxVy x y => encodeRegRegN 0x8 x y 0x6
  | .subnVxVy x y => encodeRegRegN 0x8 x y 0x7
  | .shlVxVy x y => encodeRegRegN 0x8 x y 0xE
  | .sneVxVy x y => encodeRegRegN 0x9 x y 0x0
  | .ldINnn nnn => encodeAddr 0xA nnn
  | .jpV0Nnn nnn => encodeAddr 0xB nnn
  | .rndVxNn x nn => encodeRegImm 0xC x nn
  | .drwVxVyN x y n => encodeRegRegN 0xD x y n
  | .skpVx x => encodeRegImm 0xE x 0x9E
  | .sknpVx x => encodeRegImm 0xE x 0xA1
  | .ldVxDt x => encodeRegImm 0xF x 0x07
  | .ldVxK x => encodeRegImm 0xF x 0x0A
  | .ldDtVx x => encodeRegImm 0xF x 0x15
  | .ldStVx x => encodeRegImm 0xF x 0x18
  | .addIVx x => encodeRegImm 0xF x 0x1E
  | .ldFVx x => encodeRegImm 0xF x 0x29
  | .ldBVx x => encodeRegImm 0xF x 0x33
  | .ldMemVx x => encodeRegImm 0xF x 0x55
  | .ldVxMem x => encodeRegImm 0xF x 0x65

/-! The opcode table of R67 as data: what "matches a row" means (R64). -/

/-- One row's mask and match columns (R67). -/
structure OpcodeRow where
  mask  : Word
  value : Word
  deriving DecidableEq, Repr

/-- A word matches a row when `(w AND mask) = match` (R67). -/
def OpcodeRow.matchesWord (r : OpcodeRow) (w : Word) : Bool := w &&& r.mask == r.value

/-- Row 22, BNNN; left out if JUMP_OFFSET_REG = Absent (R64). -/
def opcodeRowB (p : JumpOffsetReg) : List OpcodeRow :=
  match p with
  | .absent => []
  | .v0 => [⟨0xF000, 0xB000⟩]
  | .vx => [⟨0xF000, 0xB000⟩]

/-- The rows of R67, in the table's order. -/
def opcodeRows (p : JumpOffsetReg) : List OpcodeRow :=
  [⟨0xFFFF, 0x0000⟩, ⟨0xFFFF, 0x00E0⟩, ⟨0xFFFF, 0x00EE⟩, ⟨0xF000, 0x1000⟩, ⟨0xF000, 0x2000⟩,
   ⟨0xF000, 0x3000⟩, ⟨0xF000, 0x4000⟩, ⟨0xF00F, 0x5000⟩, ⟨0xF000, 0x6000⟩, ⟨0xF000, 0x7000⟩] ++
  [⟨0xF00F, 0x8000⟩, ⟨0xF00F, 0x8001⟩, ⟨0xF00F, 0x8002⟩, ⟨0xF00F, 0x8003⟩, ⟨0xF00F, 0x8004⟩,
   ⟨0xF00F, 0x8005⟩, ⟨0xF00F, 0x8006⟩, ⟨0xF00F, 0x8007⟩, ⟨0xF00F, 0x800E⟩, ⟨0xF00F, 0x9000⟩] ++
  [⟨0xF000, 0xA000⟩] ++ opcodeRowB p ++ [⟨0xF000, 0xC000⟩, ⟨0xF000, 0xD000⟩, ⟨0xF0FF, 0xE09E⟩, ⟨0xF0FF, 0xE0A1⟩] ++
  [⟨0xF0FF, 0xF007⟩, ⟨0xF0FF, 0xF00A⟩, ⟨0xF0FF, 0xF015⟩, ⟨0xF0FF, 0xF018⟩, ⟨0xF0FF, 0xF01E⟩,
   ⟨0xF0FF, 0xF029⟩, ⟨0xF0FF, 0xF033⟩, ⟨0xF0FF, 0xF055⟩, ⟨0xF0FF, 0xF065⟩]

end Sys2Proof
end

