-- ==== Sys2Proof/Machine/Defaults.lean ====
section
/-! DEFINITION. The default values of the parameters of 00_scope.md R8, the default FONT among them (10_state.md R34), and what a
byte of memory that no cell lists reads as: the reset contents (R230). They stand here, where a later repair may mend them. -/

namespace Sys2Proof.Machine

/-- The default FONT, glyph by glyph (10_state.md R34; the bytes are from general knowledge, D17, log 7). -/
def defaultFontBytes : List Byte :=
  [0xF0, 0x90, 0x90, 0x90, 0xF0] ++ [0x20, 0x60, 0x20, 0x20, 0x70] ++ [0xF0, 0x10, 0xF0, 0x80, 0xF0] ++
  [0xF0, 0x10, 0xF0, 0x10, 0xF0] ++ [0x90, 0x90, 0xF0, 0x10, 0x10] ++ [0xF0, 0x80, 0xF0, 0x10, 0xF0] ++
  [0xF0, 0x80, 0xF0, 0x90, 0xF0] ++ [0xF0, 0x10, 0x20, 0x40, 0x40] ++ [0xF0, 0x90, 0xF0, 0x90, 0xF0] ++
  [0xF0, 0x90, 0xF0, 0x10, 0xF0] ++ [0xF0, 0x90, 0xF0, 0x90, 0x90] ++ [0xE0, 0x90, 0xE0, 0x90, 0xE0] ++
  [0xF0, 0x80, 0x80, 0x80, 0xF0] ++ [0xE0, 0x90, 0x90, 0x90, 0xE0] ++ [0xF0, 0x80, 0xF0, 0x80, 0xF0] ++
  [0xF0, 0x80, 0xF0, 0x80, 0x80]

/-- The parameters at their defaults (R8; log 2 to log 7). -/
def defaultConfig : Config where
  subPolarity    := .notBorrow
  shiftSource    := .vx
  logicResetsVF  := false
  indexIncrement := .unchanged
  jumpOffsetReg  := .v0
  font           := ⟨defaultFontBytes.toArray, rfl⟩

/-- What an unlisted address reads as: the default FONT at 0x000..0x04F and 0 elsewhere, the contents after reset under the
default parameters (R27, R50, R230; log 21). -/
def background (a : Nat) : Byte := defaultFontBytes.getD a 0

end Sys2Proof.Machine
end

