-- ==== Sys2Proof/Machine/State.lean ====
section
/-! DEFINITION. The machine state of 10_state.md R10 and R36 as plain data, the faults of 60_exceptions.md R180 and R181, the
refusals, and the state after reset (70_reset_and_hazards.md R230). -/

namespace Sys2Proof.Machine

/-- The faults of 60_exceptions.md R180, each with its record of R181: `pc` is the record's `at` (the fetch address of the
step), `word` its `word`, and the last argument its `info`. A fault is terminal (R183) and precise (R182). All are the spec's own
stops, so SAFE: the model stops where the spec says that the core stops. -/
inductive Fault where
  /-- Code 1. Raised by fetch (no word: R45), DXYN (R141), FX33 (R165), FX55 (R166) and FX65 (R167) at an address of 4096 or
  more. Safe (log 15: where the sum or the fetch is the spec's choice, the model stops more). -/
  | outOfBounds (pc : Word) (word : Option Word) (addr : Nat)
  /-- Code 2. Raised by 2NNN with sp = 16 (R86). Safe. -/
  | stackOverflow (pc word : Word)
  /-- Code 3. Raised by 00EE with sp = 0 (R84). Safe. -/
  | stackUnderflow (pc word : Word)
  /-- Code 4. Raised by decode for a word that matches no row (R64), 0xBNNN under JUMP_OFFSET_REG = Absent among them (R87).
  Safe (log 17). -/
  | unknownInstruction (pc word : Word)
  /-- Code 5. Raised by EX9E and EXA1 with V[X] >= 16 (R150). Safe (log 16). -/
  | badKeyIndex (pc word : Word) (key : Byte)
  deriving DecidableEq, Repr

/-- What has no meaning in the model. All are SAFE: nothing is claimed of what the core does there. -/
inductive Refusal where
  /-- An instruction without a meaning yet; raised by an arm of `exec`. No arm raises it: every instruction is modelled. -/
  | notModelled (mnemonic : String)
  /-- A step or a host operation while `status` is `Faulted`: no operation is admitted (R183). Raised by `step` and by
  `hostCall`. Safe: the spec admits no such call. -/
  | notAdmitted
  /-- `set key state` with an index outside 0..15: the interface refuses it (R199, log 18). Raised by `hostCall`. Safe. -/
  | keyIndexOutOfRange (key : Nat)
  deriving DecidableEq, Repr

/-- The component `status` of R36. -/
inductive Status where
  | running
  | faulted (f : Fault)
  deriving DecidableEq, Repr

/-- Memory: the cells that differ from `background`, at strictly rising addresses below 4096 (`Memory.wf`; log 21). -/
abbrev Memory := List Host.Cell

/-- The canonical form of a memory: rising addresses, all of them in 0..4095, and no cell equal to what an unlisted address
reads as. -/
abbrev Memory.wf (m : Memory) : Prop :=
  m.Pairwise (fun c d => c.1 < d.1) ∧ ∀ c ∈ m, c.1 < 4096 ∧ c.2 ≠ background c.1

/-- The framebuffer: 32 rows of 64 cells, row-major; true is lit (R28). -/
abbrev Framebuffer := Vector (Vector Bool 64) 32

/-- The machine state: the components of R10, `status` of R36, and the model's own `config` (log 1) and `draws` (log 9). -/
structure State where
  v      : Vector Byte 16
  index  : Word
  pc     : Word
  stack  : Vector Word 16
  sp     : Fin 17
  mem    : Memory
  fb     : Framebuffer
  keys   : Vector Bool 16
  dt     : Byte
  st     : Byte
  status : Status
  config : Config
  draws  : Nat
  deriving DecidableEq, Repr

/-- What one instruction or one step answers. -/
abbrev Result := Host.Outcome State Fault Refusal

/-- The machine right after reset (R230). The spec gives every component's value. `config` and `draws` are the model's own. -/
def State.reset : State where
  v      := Vector.replicate 16 0
  index  := 0
  pc     := 0x200
  stack  := Vector.replicate 16 0
  sp     := 0
  mem    := []
  fb     := Vector.replicate 32 (Vector.replicate 64 false)
  keys   := Vector.replicate 16 false
  dt     := 0
  st     := 0
  status := .running
  config := defaultConfig
  draws  := 0

end Sys2Proof.Machine
end

