-- ==== Sys2Proof/Machine/Ops.lean ====
section
/-! DEFINITION. The named operations over the state: registers, pc, stack, memory (20_memory.md R41 to R45), framebuffer, and
raising a fault (60_exceptions.md R180 to R183), which is this core's whole exception mechanism: there is no trap entry and no
return from one (R186, R187). -/

namespace Sys2Proof.Machine

/-! Registers, pc, timers. -/

/-- VF, the flag register (R13). -/
def flagReg : RegIdx := 15

/-- Read V[j] (R11). -/
def State.reg (s : State) (j : RegIdx) : Byte := s.v[j.val]

/-- `V[j] <- b`. No register is hardwired (R11). -/
def State.setReg (s : State) (j : RegIdx) (b : Byte) : State := { s with v := s.v.set j.val b }

/-- `I <- w`. -/
def State.setIndex (s : State) (w : Word) : State := { s with index := w }

/-- `pc <- w`. -/
def State.setPc (s : State) (w : Word) : State := { s with pc := w }

/-- `DT <- b`. -/
def State.setDt (s : State) (b : Byte) : State := { s with dt := b }

/-- `ST <- b`. -/
def State.setSt (s : State) (b : Byte) : State := { s with st := b }

/-- Replace the memory. -/
def State.setMem (s : State) (m : Memory) : State := { s with mem := m }

/-- Replace the framebuffer. -/
def State.setFb (s : State) (fb : Framebuffer) : State := { s with fb := fb }

/-- Replace the register file (FX65 writes several at once). -/
def State.setRegs (s : State) (v : Vector Byte 16) : State := { s with v := v }

/-- Count one draw of the random source (R132; the model's own counter, log 9). -/
def State.countDraw (s : State) : State := { s with draws := s.draws + 1 }

/-- The byte that the next draw of the random source answers: a free value (R132, log 9). -/
def State.nextRandom (s : State) : Byte := Config.randomByte s.draws

/-- Fetch advances pc by 2 before execute (R80); a taken skip advances it by 2 again (R100). Modulo 65536. -/
def State.advancePc (s : State) : State := s.setPc (s.pc + 2)

/-- `Skip()` if the condition holds (R100). -/
def State.skipIf (s : State) (c : Bool) : State := if c then s.advancePc else s

/-- FX0A with no key pressed: `pc <- pc - 2`, modulo 65536 (R161). -/
def State.rewindPc (s : State) : State := s.setPc (s.pc - 2)

/-- Write `bs` to the registers j, j + 1, .. in order, lowest first; an index past 15 is not written. -/
def setRegRange (v : Vector Byte 16) (j : Nat) : List Byte → Vector Byte 16
  | [] => v
  | b :: bs => setRegRange (v.setIfInBounds j b) (j + 1) bs

/-- The values of V[0]..V[x], lowest first (FX55, R166). -/
def State.regsUpTo (s : State) (x : RegIdx) : List Byte := s.v.toList.take (x.val + 1)

/-! The call stack (R23 to R26): `sp` counts the occupied slots (log 13). -/

/-- `stack[j]` (R23). -/
def State.slot (s : State) (j : Fin 16) : Word := s.stack[j.val]

/-- Push: write `stack[sp]`, then increment sp; none if all 16 slots are occupied. -/
def State.push (s : State) (w : Word) : Option State :=
  if h : s.sp.val < 16 then
    some { s with stack := s.stack.set s.sp.val w, sp := ⟨s.sp.val + 1, Nat.succ_lt_succ h⟩ }
  else none

/-- Pop: decrement sp, then read `stack[sp]`, which keeps its value (R26); none if no slot is occupied. -/
def State.pop (s : State) : Option (Word × State) :=
  match s.sp with
  | ⟨0, _⟩ => none
  | ⟨n + 1, h⟩ => some (s.stack[n]'(Nat.lt_of_succ_lt_succ h), { s with sp := ⟨n, Nat.lt_of_succ_lt h⟩ })

/-! Memory. A read of one address takes the cell that lists it, or the background; a write keeps the canonical form. -/

/-- The byte at an address, without a bounds check. -/
def Memory.read : Memory → Nat → Byte
  | [], a => background a
  | c :: m, a => if c.1 = a then c.2 else Memory.read m a

/-- Remove the cell of an address. -/
def Memory.erase : Memory → Nat → Memory
  | [], _ => []
  | c :: m, a => if c.1 = a then Memory.erase m a else c :: Memory.erase m a

/-- Put a cell in its place by address. -/
def Memory.place : Memory → Nat → Byte → Memory
  | [], a, b => [(a, b)]
  | c :: m, a, b => if a < c.1 then (a, b) :: c :: m else c :: Memory.place m a b

/-- Write the byte at an address, without a bounds check: writing what an unlisted address reads as removes the cell. -/
def Memory.write (m : Memory) (a : Nat) (b : Byte) : Memory :=
  if b = background a then Memory.erase m a else Memory.place (Memory.erase m a) a b

/-- Write consecutive bytes from an address, lowest first, without a bounds check. -/
def Memory.writeList (m : Memory) (a : Nat) : List Byte → Memory
  | [] => m
  | b :: bs => Memory.writeList (m.write a b) (a + 1) bs

/-- `MemRead(addr, 1)` (R41): the error is the address of the OutOfBounds fault. -/
def memRead (m : Memory) (addr : Nat) : Except Nat Byte :=
  if 4096 ≤ addr then .error addr else .ok (m.read addr)

/-- `MemWrite(addr, 1, v)` (R42). -/
def memWrite (m : Memory) (addr : Nat) (b : Byte) : Except Nat Memory :=
  if 4096 ≤ addr then .error addr else .ok (m.write addr b)

/-- Read `n` bytes from `base`, lowest first; the error is the lowest address out of bounds (R184). The address sum is exact
(R43). -/
def memReadRange (m : Memory) (base : Nat) : Nat → Except Nat (List Byte)
  | 0 => .ok []
  | n + 1 =>
    match memRead m base with
    | .error a => .error a
    | .ok b =>
      match memReadRange m (base + 1) n with
      | .error a => .error a
      | .ok bs => .ok (b :: bs)

/-- Write bytes from `base`, lowest first; the error is the lowest address out of bounds, and then nothing is written: the
answer carries no memory (R182). -/
def memWriteRange (m : Memory) (base : Nat) : List Byte → Except Nat Memory
  | [] => .ok m
  | b :: bs =>
    match memWrite m base b with
    | .error a => .error a
    | .ok m' => memWriteRange m' (base + 1) bs

/-- Write memory by address only where it exists: the host's own way of placing bytes (`State.withFetchWord`). -/
def Memory.writeInside (m : Memory) (a : Nat) (b : Byte) : Memory := if 4096 ≤ a then m else m.write a b

/-- `Fetch(pc)` (R44, R45): the two bytes at pc, big-endian, or the first address that cannot be read. -/
def fetch (s : State) : Except Nat Word :=
  match memRead s.mem s.pc.toNat with
  | .error a => .error a
  | .ok hi =>
    match memRead s.mem (s.pc.toNat + 1) with
    | .error a => .error a
    | .ok lo => .ok (wordOfBytes hi lo)

/-! The framebuffer. -/

/-- `fb[x, y]`. -/
def Framebuffer.cell (fb : Framebuffer) (x : Fin 64) (y : Fin 32) : Bool := (fb[y.val])[x.val]

/-- `fb[x, y] <- b`. -/
def Framebuffer.setCell (fb : Framebuffer) (x : Fin 64) (y : Fin 32) (b : Bool) : Framebuffer :=
  fb.set y.val ((fb[y.val]).set x.val b)

/-- All 2048 cells `false` (R83). -/
def Framebuffer.blank : Framebuffer := Vector.replicate 32 (Vector.replicate 64 false)

/-- The 2048 cells in row-major order: element `y * 64 + x` is `fb[x, y]` (R200). -/
def Framebuffer.cells (fb : Framebuffer) : List Bool := (fb.toList.map Vector.toList).flatten

/-- `fb[x, y]` of a state. -/
def State.cell (s : State) (x : Fin 64) (y : Fin 32) : Bool := s.fb.cell x y

/-! Keys. -/

/-- `keys[k]`. -/
def State.key (s : State) (k : Fin 16) : Bool := s.keys[k.val]

/-- The lowest pressed key index, by ascending scan from `k` over the list of the keys from `k` on (R161). -/
def firstPressedFrom (k : Nat) : List Bool → Option Nat
  | [] => none
  | b :: bs => if b then some k else firstPressedFrom (k + 1) bs

/-- The lowest pressed key (R161). -/
def State.firstPressed (s : State) : Option Nat := firstPressedFrom 0 s.keys.toList

/-! Raising a fault. -/

/-- The kind's code (R180). -/
def Fault.code : Fault → Nat
  | .outOfBounds _ _ _ => 1
  | .stackOverflow _ _ => 2
  | .stackUnderflow _ _ => 3
  | .unknownInstruction _ _ => 4
  | .badKeyIndex _ _ _ => 5

/-- The record's `at`: the fetch address of the step (R181). -/
def Fault.fetchAddr : Fault → Word
  | .outOfBounds a _ _ => a
  | .stackOverflow a _ => a
  | .stackUnderflow a _ => a
  | .unknownInstruction a _ => a
  | .badKeyIndex a _ _ => a

/-- The record's `word`: the fetched word, absent if the fetch itself faulted (R181). -/
def Fault.fetchedWord : Fault → Option Word
  | .outOfBounds _ w _ => w
  | .stackOverflow _ w => some w
  | .stackUnderflow _ w => some w
  | .unknownInstruction _ w => some w
  | .badKeyIndex _ w _ => some w

/-- The record's `info`: the address, the word or the key index; none for the stack faults (R180, R181). -/
def Fault.info : Fault → Option Nat
  | .outOfBounds _ _ a => some a
  | .stackOverflow _ _ => none
  | .stackUnderflow _ _ => none
  | .unknownInstruction _ w => some w.toNat
  | .badKeyIndex _ _ k => some k.toNat

/-- The fetch address of the running step: during execute pc holds it plus 2 (R19, R80). -/
def State.fetchAddr (s : State) : Word := s.pc - 2

/-- Raise a fault from within the instruction `i`: the record takes the fetch address and the instruction's word (R181; log 11).
The answer carries no state, so the step writes nothing (R182). -/
def raise (i : Instr) (s : State) (kind : Word → Word → Fault) : Result := .fault (kind s.fetchAddr (encode i))

/-- `Fault(OutOfBounds, addr)` raised by an instruction's data access. -/
def raiseOutOfBounds (i : Instr) (s : State) (addr : Nat) : Result :=
  raise i s (fun a w => .outOfBounds a (some w) addr)

/-- `Fault(OutOfBounds, addr)` raised by fetch, before pc advances: no word has been fetched (R45, R181). -/
def raiseFetch (s : State) (addr : Nat) : Result := .fault (.outOfBounds s.pc none addr)

/-- `Fault(UnknownInstruction, w)` raised by decode, before pc advances (R64, R80). -/
def raiseUnknown (s : State) (w : Word) : Result := .fault (.unknownInstruction s.pc w)

/-- What a fault leaves: every component as before the step, but for `status <- Faulted(record)` (R182, R183). -/
def State.enterFaulted (s : State) (f : Fault) : State := { s with status := .faulted f }

end Sys2Proof.Machine
end

