-- ==== Sys2Proof/Machine/Operands.lean ====
section
/-! DEFINITION. The operand forms: how the fields of 30_encoding.md R61, R62 become values, with the parameters that choose an
operand register (42_alu.md R113, 40_control.md R87). -/

namespace Sys2Proof.Machine

/-- `zext_16(NNN)` (R62). -/
def addrOperand (nnn : Addr12) : Word := nnn.setWidth 16

/-- The X field of 0xBNNN, `w[11:8]`: the high nibble of NNN (R87). -/
def jumpX (nnn : Addr12) : RegIdx := (nnn.extractLsb' 8 4).toFin

/-- The offset register's value for BNNN: none if JUMP_OFFSET_REG = Absent (R87). -/
def State.jumpOffset (s : State) (nnn : Addr12) : Option Byte :=
  match s.config.jumpOffsetReg with
  | .v0 => some (s.reg 0)
  | .vx => some (s.reg (jumpX nnn))
  | .absent => none

/-- `zext_16(NNN) + zext_16(r)`, not reduced modulo 4096 (R87). -/
def jumpTarget (nnn : Addr12) (r : Byte) : Word := addrOperand nnn + r.setWidth 16

/-- `ShiftSrc()` (R113). -/
def State.shiftOperand (s : State) (x y : RegIdx) : Byte :=
  match s.config.shiftSource with
  | .vx => s.reg x
  | .vy => s.reg y

/-- The base of a data address: I as an exact natural (R43). -/
def State.dataBase (s : State) : Nat := s.index.toNat

/-- The address of the glyph named by the low nibble: FONT_BASE = 0, 5 bytes a glyph (R164). -/
def glyphAddress (b : Byte) : Word := BitVec.ofNat 16 ((b &&& 0x0F).toNat * 5)

/-- The hundreds, tens and ones digits (R165). -/
def bcdDigits (b : Byte) : List Byte :=
  [BitVec.ofNat 8 (b.toNat / 100), BitVec.ofNat 8 (b.toNat / 10 % 10), BitVec.ofNat 8 (b.toNat % 10)]

/-- I after FX55 and FX65: unchanged, or `(I + X + 1) mod 65536` (R166, R167). -/
def State.bulkIndex (s : State) (x : RegIdx) : Word :=
  match s.config.indexIncrement with
  | .unchanged => s.index
  | .xPlus1 => s.index + BitVec.ofNat 16 (x.val + 1)

end Sys2Proof.Machine
end

