-- ==== Sys2Proof/Machine/Flags.lean ====
section
/-! DEFINITION. Every flag computation: the value written to VF, and the order of the result and flag writes (42_alu.md R111 to
R114, R121 to R125). Sums and differences are compared as exact naturals. -/

namespace Sys2Proof.Machine

/-- `bool(c)` as a register value: each flag is written as 1 or 0 (R14). -/
def flagByte (c : Bool) : Byte := if c then 1 else 0

/-- Carry out of bit 7: the exact sum is above 255 (R121). -/
def carryFlag (a b : Byte) : Bool := decide (255 < a.toNat + b.toNat)

/-- `SubFlag(m, s)` for minuend m and subtrahend s (R112). -/
def subFlag (p : SubPolarity) (m s : Byte) : Bool :=
  match p with
  | .notBorrow => decide (s.toNat ≤ m.toNat)
  | .borrow => decide (m.toNat < s.toNat)

/-- The bit shifted out to the right: bit 0 of the source (R123). -/
def shrFlag (b : Byte) : Bool := b.getLsbD 0

/-- The bit shifted out to the left: bit 7 of the source (R125). -/
def shlFlag (b : Byte) : Bool := b.getLsbD 7

/-- Write the result to V[X] and then the flag to V[F], so that V[F] ends with the flag also when X = F (R111). -/
def State.setResultFlag (s : State) (x : RegIdx) (result : Byte) (flag : Bool) : State :=
  (s.setReg x result).setReg flagReg (flagByte flag)

/-- A logic form's result, and then V[F] <- 0 if LOGIC_RESETS_VF (R114). -/
def State.setLogicResult (s : State) (x : RegIdx) (result : Byte) : State :=
  if s.config.logicResetsVF then (s.setReg x result).setReg flagReg 0 else s.setReg x result

end Sys2Proof.Machine
end

