-- ==== Sys2Proof/Machine/Alu.lean ====
section
/-! DEFINITION. Immediate and register arithmetic (42_alu.md). Arithmetic on bytes wraps modulo 256 (R110); operands are read
from the state before any write (30_encoding.md R66). -/

namespace Sys2Proof.Machine

/-- 6XNN LD VX, NN (R115). -/
def execLdVxNn (x : RegIdx) (nn : Byte) (s : State) : Result := .next (s.setReg x nn)

/-- 7XNN ADD VX, NN (R116): no flag. -/
def execAddVxNn (x : RegIdx) (nn : Byte) (s : State) : Result := .next (s.setReg x (s.reg x + nn))

/-- 8XY0 LD VX, VY (R117). -/
def execLdVxVy (x y : RegIdx) (s : State) : Result := .next (s.setReg x (s.reg y))

/-- 8XY1 OR VX, VY (R118). -/
def execOrVxVy (x y : RegIdx) (s : State) : Result := .next (s.setLogicResult x (s.reg x ||| s.reg y))

/-- 8XY2 AND VX, VY (R119). -/
def execAndVxVy (x y : RegIdx) (s : State) : Result := .next (s.setLogicResult x (s.reg x &&& s.reg y))

/-- 8XY3 XOR VX, VY (R120). -/
def execXorVxVy (x y : RegIdx) (s : State) : Result := .next (s.setLogicResult x (s.reg x ^^^ s.reg y))

/-- 8XY4 ADD VX, VY (R121). -/
def execAddVxVy (x y : RegIdx) (s : State) : Result :=
  .next (s.setResultFlag x (s.reg x + s.reg y) (carryFlag (s.reg x) (s.reg y)))

/-- 8XY5 SUB VX, VY (R122). -/
def execSubVxVy (x y : RegIdx) (s : State) : Result :=
  .next (s.setResultFlag x (s.reg x - s.reg y) (subFlag s.config.subPolarity (s.reg x) (s.reg y)))

/-- 8XY6 SHR VX, VY (R123). -/
def execShrVxVy (x y : RegIdx) (s : State) : Result :=
  .next (s.setResultFlag x (s.shiftOperand x y >>> 1) (shrFlag (s.shiftOperand x y)))

/-- 8XY7 SUBN VX, VY (R124). -/
def execSubnVxVy (x y : RegIdx) (s : State) : Result :=
  .next (s.setResultFlag x (s.reg y - s.reg x) (subFlag s.config.subPolarity (s.reg y) (s.reg x)))

/-- 8XYE SHL VX, VY (R125). -/
def execShlVxVy (x y : RegIdx) (s : State) : Result :=
  .next (s.setResultFlag x (s.shiftOperand x y <<< 1) (shlFlag (s.shiftOperand x y)))

end Sys2Proof.Machine
end

