-- ==== Sys2Proof/Machine/Control.lean ====
section
/-! DEFINITION. Control transfer (40_control.md): NOP, CLS, RET, JP, CALL, JP V0. In every meaning pc already holds the fetch
address plus 2 (R80). -/

namespace Sys2Proof.Machine

/-- 0000 NOP (R82). -/
def execNop (s : State) : Result := .next s

/-- 00E0 CLS (R83). -/
def execCls (s : State) : Result := .next (s.setFb Framebuffer.blank)

/-- 00EE RET (R84). -/
def execRet (s : State) : Result :=
  match s.pop with
  | none => raise .ret s .stackUnderflow
  | some (target, t) => .next (t.setPc target)

/-- 1NNN JP NNN (R85). -/
def execJp (nnn : Addr12) (s : State) : Result := .next (s.setPc (addrOperand nnn))

/-- 2NNN CALL NNN (R86). -/
def execCall (nnn : Addr12) (s : State) : Result :=
  match s.push s.pc with
  | none => raise (.call nnn) s .stackOverflow
  | some t => .next (t.setPc (addrOperand nnn))

/-- BNNN JP V0, NNN (R87); an unknown word if JUMP_OFFSET_REG = Absent. -/
def execJpV0Nnn (nnn : Addr12) (s : State) : Result :=
  match s.jumpOffset nnn with
  | none => raise (.jpV0Nnn nnn) s .unknownInstruction
  | some r => .next (s.setPc (jumpTarget nnn r))

end Sys2Proof.Machine
end

