-- ==== Sys2Proof/Machine/Display.lean ====
section
/-! DEFINITION. Sprite draw (44_display.md R140 to R143). -/

namespace Sys2Proof.Machine

/-- A framebuffer under drawing, and whether a toggle has turned a lit cell off so far. -/
structure Canvas where
  fb       : Framebuffer
  collided : Bool
  deriving DecidableEq, Repr

/-- Toggle one cell, noting a collision if it was lit (R141). -/
def Canvas.toggle (k : Canvas) (px : Fin 64) (py : Fin 32) : Canvas where
  fb       := k.fb.setCell px py (!k.fb.cell px py)
  collided := k.collided || k.fb.cell px py

/-- Columns c, c + 1, .. (`n` of them) of sprite row r: bit 7 is column 0; a 1 bit toggles its cell, whose coordinates wrap
modulo 64 and 32 (R140, R141). -/
def Canvas.drawBits (k : Canvas) (x0 y0 r : Nat) (b : Byte) (c : Nat) : Nat → Canvas
  | 0 => k
  | n + 1 =>
    if b.getLsbD (7 - c) then
      Canvas.drawBits (k.toggle (Fin.ofNat 64 (x0 + c)) (Fin.ofNat 32 (y0 + r))) x0 y0 r b (c + 1) n
    else Canvas.drawBits k x0 y0 r b (c + 1) n

/-- Rows r, r + 1, .. of a sprite, one byte each, 8 columns wide (R140, R141). -/
def Canvas.drawRows (k : Canvas) (x0 y0 r : Nat) : List Byte → Canvas
  | [] => k
  | b :: bs => Canvas.drawRows (k.drawBits x0 y0 r b 0 8) x0 y0 (r + 1) bs

/-- The whole draw of a sprite at (x0, y0), from no collision (R141). -/
def State.drawSprite (s : State) (x0 y0 : Byte) (rows : List Byte) : Canvas :=
  Canvas.drawRows ⟨s.fb, false⟩ x0.toNat y0.toNat 0 rows

/-- DXYN DRW VX, VY, N (R141): all reads are checked before any cell changes, and V[F] is written after the whole draw. -/
def execDrwVxVyN (x y : RegIdx) (n : Count) (s : State) : Result :=
  match memReadRange s.mem s.dataBase n.val with
  | .error a => raiseOutOfBounds (.drwVxVyN x y n) s a
  | .ok rows =>
    .next ((s.setFb (s.drawSprite (s.reg x) (s.reg y) rows).fb).setReg flagReg
      (flagByte (s.drawSprite (s.reg x) (s.reg y) rows).collided))

end Sys2Proof.Machine
end

