-- ==== Sys2Proof/Machine/FFamily.lean ====
section
/-! DEFINITION. The F family but FX1E (46_f_family.md): timers, key wait, font, BCD, bulk store and load. -/

namespace Sys2Proof.Machine

/-- FX07 LD VX, DT (R160). -/
def execLdVxDt (x : RegIdx) (s : State) : Result := .next (s.setReg x s.dt)

/-- FX0A LD VX, K (R161): the lowest pressed key, or pc back to the same instruction. -/
def execLdVxK (x : RegIdx) (s : State) : Result :=
  match s.firstPressed with
  | some k => .next (s.setReg x (BitVec.ofNat 8 k))
  | none => .next s.rewindPc

/-- FX15 LD DT, VX (R162). -/
def execLdDtVx (x : RegIdx) (s : State) : Result := .next (s.setDt (s.reg x))

/-- FX18 LD ST, VX (R163). -/
def execLdStVx (x : RegIdx) (s : State) : Result := .next (s.setSt (s.reg x))

/-- FX29 LD F, VX (R164). -/
def execLdFVx (x : RegIdx) (s : State) : Result := .next (s.setIndex (glyphAddress (s.reg x)))

/-- FX33 LD B, VX (R165). -/
def execLdBVx (x : RegIdx) (s : State) : Result :=
  match memWriteRange s.mem s.dataBase (bcdDigits (s.reg x)) with
  | .error a => raiseOutOfBounds (.ldBVx x) s a
  | .ok m => .next (s.setMem m)

/-- FX55 LD [I], VX (R166). -/
def execLdMemVx (x : RegIdx) (s : State) : Result :=
  match memWriteRange s.mem s.dataBase (s.regsUpTo x) with
  | .error a => raiseOutOfBounds (.ldMemVx x) s a
  | .ok m => .next ((s.setMem m).setIndex (s.bulkIndex x))

/-- FX65 LD VX, [I] (R167). -/
def execLdVxMem (x : RegIdx) (s : State) : Result :=
  match memReadRange s.mem s.dataBase (x.val + 1) with
  | .error a => raiseOutOfBounds (.ldVxMem x) s a
  | .ok bs => .next ((s.setRegs (setRegRange s.v 0 bs)).setIndex (s.bulkIndex x))

end Sys2Proof.Machine
end

