-- ==== Sys2Proof/Machine/IndexRandom.lean ====
section
/-! DEFINITION. Index register and random (43_index_random.md). -/

namespace Sys2Proof.Machine

/-- ANNN LD I, NNN (R130). -/
def execLdINnn (nnn : Addr12) (s : State) : Result := .next (s.setIndex (addrOperand nnn))

/-- FX1E ADD I, VX (R131): modulo 65536, no flag. -/
def execAddIVx (x : RegIdx) (s : State) : Result := .next (s.setIndex (s.index + (s.reg x).setWidth 16))

/-- The effect of CXNN for a drawn byte r: `V[X] <- r AND NN` (R133). -/
def State.setMasked (s : State) (x : RegIdx) (r nn : Byte) : State := s.setReg x (r &&& nn)

/-- CXNN RND VX, NN (R132, R133): the drawn byte is a free value (log 9). -/
def execRndVxNn (x : RegIdx) (nn : Byte) (s : State) : Result := .next (s.countDraw.setMasked x s.nextRandom nn)

end Sys2Proof.Machine
end

