-- ==== Sys2Proof/Machine/KeySkip.lean ====
section
/-! DEFINITION. Key-state skips (45_key_skip.md). The key is named by the value of V[X]; 16 and above is BadKeyIndex (R150). -/

namespace Sys2Proof.Machine

/-- EX9E SKP VX (R151). -/
def execSkpVx (x : RegIdx) (s : State) : Result :=
  if h : (s.reg x).toNat < 16 then .next (s.skipIf (s.key ⟨(s.reg x).toNat, h⟩))
  else raise (.skpVx x) s (fun a w => .badKeyIndex a w (s.reg x))

/-- EXA1 SKNP VX (R152). -/
def execSknpVx (x : RegIdx) (s : State) : Result :=
  if h : (s.reg x).toNat < 16 then .next (s.skipIf (!s.key ⟨(s.reg x).toNat, h⟩))
  else raise (.sknpVx x) s (fun a w => .badKeyIndex a w (s.reg x))

end Sys2Proof.Machine
end

