-- ==== Sys2Proof/Machine/Step.lean ====
section
/-! DEFINITION. The sequencer (40_control.md R80): one step fetches, decodes and executes exactly one instruction. -/

namespace Sys2Proof.Machine

/-- Decode the fetched word and execute it with pc already advanced by 2; an unknown word faults (R80). -/
def runWord (s : State) (w : Word) : Host.Outcome State Fault Refusal :=
  match decode s.config.jumpOffsetReg w with
  | .unknown w => raiseUnknown s w
  | .instr i => exec i s.advancePc

/-- One step (R80). After a fault none is admitted (R183). -/
def step (s : State) : Host.Outcome State Fault Refusal :=
  match s.status with
  | .faulted _ => .refused .notAdmitted
  | .running =>
    match fetch s with
    | .error a => raiseFetch s a
    | .ok w => runWord s w

/-- `s` with a table row's word stored, big-endian, at the two bytes that `step` fetches next. It stands for a load of the program
by the host (log 22). A byte whose address does not exist is not stored. -/
def State.withFetchWord (s : State) (nbits w : Nat) : State :=
  match bytesOfWord (tableWord nbits w) with
  | [hi, lo] => s.setMem ((s.mem.writeInside s.pc.toNat hi).writeInside (s.pc.toNat + 1) lo)
  | _ => s

end Sys2Proof.Machine
end

