-- ==== Sys2Proof/Machine/HostInterface.lean ====
section
/-! DEFINITION. The host interface (60_exceptions.md R189 to R203, 70_reset_and_hazards.md R230 to R232): the six operations of
R197 as total functions on the state, called one at a time (R198, R203) and admitted only while `status` is `Running` (R183). -/

namespace Sys2Proof.Machine

/-! Initialize and reset. -/

/-- Memory after initialize for a given FONT: the font at 0x000..0x04F, 0 elsewhere (R230). -/
def initialMem (font : Vector Byte 80) : Memory := Memory.writeList [] 0 font.toList

/-- Initialize: the machine in its initial state, for the parameters `c` (R230). -/
def State.initial (c : Config) : State := { State.reset with config := c, mem := initialMem c.font }

/-- `reset`: the same state as initialize (R231). The parameters belong to the machine and stay; the random source is outside
the core (R132), so the count of its draws goes on (log 9). -/
def State.hostReset (s : State) : State := { State.initial s.config with draws := s.draws }

/-! Load program. -/

/-- The image fits: `0x200 + L <= 4096` (R232). -/
def imageFits (image : List Byte) : Bool := decide (0x200 + image.length ≤ 4096)

/-- Copy an image that fits to 0x200 and up (R232). -/
def State.load (s : State) (image : List Byte) : State := s.setMem (s.mem.writeList 0x200 image)

/-! Timers. -/

/-- One timer's count down, saturating at 0 (R33, R189). -/
def countDown (b : Byte) : Byte := if b = 0 then 0 else b - 1

/-- `Tick()`: only DT and ST change (R189). -/
def State.tick (s : State) : State := (s.setDt (countDown s.dt)).setSt (countDown s.st)

/-- The beep a tick returns: ST was 1 before it (R190). -/
def State.beep (s : State) : Bool := s.st == 1

/-! Keys. -/

/-- `keys[k] <- pressed` (R199). -/
def State.setKey (s : State) (k : Fin 16) (pressed : Bool) : State := { s with keys := s.keys.set k.val pressed }

/-! The six operations of R197. -/

/-- What the host calls. The key index is a natural, so that an index out of range can be refused (R199). -/
inductive HostOp where
  | reset
  | loadProgram (image : List Byte)
  | setKeyState (key : Nat) (pressed : Bool)
  | step
  | advanceTimers
  | readFramebuffer
  deriving DecidableEq, Repr

/-- What the host gets back (R197): nothing, ok, an error, a fault record, the beep, or the 2048 cells. -/
inductive Reply where
  | nothing
  | ok
  | loadTooLarge
  | fault (f : Fault)
  | beep (b : Bool)
  | cells (c : List Bool)
  deriving DecidableEq, Repr

/-- A step seen by the host: after a fault the state is as before the step but for its status, and the host gets the record
(R181 to R183, R186). -/
def State.hostStep (s : State) : Except Refusal (State × Reply) :=
  match step s with
  | .next t => .ok (t, .ok)
  | .fault f => .ok (s.enterFaulted f, .fault f)
  | .refused r => .error r

/-- Load seen by the host: an image that does not fit is rejected and changes nothing, status included (R232). -/
def State.hostLoad (s : State) (image : List Byte) : State × Reply :=
  if imageFits image then (s.load image, .ok) else (s, .loadTooLarge)

/-- Set key state seen by the host: an index outside 0..15 is refused and changes nothing (R199). -/
def State.hostSetKey (s : State) (key : Nat) (pressed : Bool) : Except Refusal (State × Reply) :=
  if h : key < 16 then .ok (s.setKey ⟨key, h⟩ pressed, .nothing) else .error (.keyIndexOutOfRange key)

/-- One operation on a running core (R197). -/
def State.admitted (s : State) (op : HostOp) : Except Refusal (State × Reply) :=
  match op with
  | .reset => .ok (s.hostReset, .nothing)
  | .loadProgram image => .ok (s.hostLoad image)
  | .setKeyState key pressed => s.hostSetKey key pressed
  | .step => s.hostStep
  | .advanceTimers => .ok (s.tick, .beep s.beep)
  | .readFramebuffer => .ok (s, .cells s.fb.cells)

/-- One host operation: none is admitted after a fault, `reset` included (R183). -/
def hostCall (op : HostOp) (s : State) : Except Refusal (State × Reply) :=
  match s.status with
  | .faulted _ => .error .notAdmitted
  | .running => s.admitted op

/-- The host's calls in the order it makes them (R54, R203); the core admits them in any order (R201). A refused call ends the
sequence with its refusal. -/
def hostRun : List HostOp → State → Except Refusal (State × List Reply)
  | [], s => .ok (s, [])
  | op :: ops, s =>
    match hostCall op s with
    | .error r => .error r
    | .ok (t, reply) =>
      match hostRun ops t with
      | .error r => .error r
      | .ok (u, replies) => .ok (u, reply :: replies)

/-- The order the source's driver uses for one frame, for `n` = STEPS_PER_TICK: n steps, one tick, one framebuffer read (R201).
The number is the driver's (D24). -/
def hostFrame (n : Nat) : List HostOp := List.replicate n .step ++ [.advanceTimers, .readFramebuffer]

end Sys2Proof.Machine
end

