-- ==== Sys2Proof/Safety.lean ====
section
/-! DEFINITION. The terms that statements about the machine use: the places of the state and when two states agree on one, which
places an instruction may write (10_state.md R12, R16, R20, R28; 20_memory.md R47), the invariant of reachable states
(10_state.md R22), and the cells a sprite covers (44_display.md R141). -/

namespace Sys2Proof.Machine

/-- One byte of memory, whatever the address (R41). -/
def State.byteAt (s : State) (a : Nat) : Byte := s.mem.read a

/-- A place of the state: one register, one stack slot, one byte of memory, one framebuffer cell, one key, or a whole field. -/
inductive Loc where
  | reg (j : RegIdx)
  | index
  | pc
  | slot (j : Fin 16)
  | sp
  | byte (a : Nat)
  | cell (x : Fin 64) (y : Fin 32)
  | key (k : Fin 16)
  | dt
  | st
  | status
  | config
  | draws
  deriving DecidableEq, Repr

/-- The two states hold the same value in this place. -/
def Loc.same : Loc → State → State → Prop
  | .reg j, s, t => t.reg j = s.reg j
  | .index, s, t => t.index = s.index
  | .pc, s, t => t.pc = s.pc
  | .slot j, s, t => t.slot j = s.slot j
  | .sp, s, t => t.sp = s.sp
  | .byte a, s, t => t.byteAt a = s.byteAt a
  | .cell x y, s, t => t.cell x y = s.cell x y
  | .key k, s, t => t.key k = s.key k
  | .dt, s, t => t.dt = s.dt
  | .st, s, t => t.st = s.st
  | .status, s, t => t.status = s.status
  | .config, s, t => t.config = s.config
  | .draws, s, t => t.draws = s.draws

/-- From `s` to `t` nothing changes but places in `W`: every register, stack slot, memory byte, framebuffer cell, key and field
outside `W` holds what it held. -/
def OnlyWrites (s t : State) (W : Loc → Prop) : Prop := ∀ l, ¬ W l → l.same s t

/-- The byte at `a` is one of the `n` bytes from the data address I (R43, R47). -/
def InData (s : State) (n a : Nat) : Prop := s.dataBase ≤ a ∧ a < s.dataBase + n

/-- The `n` bytes from the data address I exist (R41): the condition under which no access of the range faults. With n = 0 there
is none. -/
def DataInBounds (s : State) (n : Nat) : Prop := n = 0 ∨ s.dataBase + n ≤ 4096

/-- The places an instruction may write when it is executed in `s` (pc already advanced by fetch). -/
def MayWrite (s : State) : Instr → Loc → Prop
  | .nop, _ => False
  | .cls, l => ∃ px py, l = .cell px py
  | .ret, l => l = .pc ∨ l = .sp
  | .jp _, l => l = .pc
  | .call _, l => l = .pc ∨ l = .sp ∨ ∃ j : Fin 16, j.val = s.sp.val ∧ l = .slot j
  | .seVxNn _ _, l => l = .pc
  | .sneVxNn _ _, l => l = .pc
  | .seVxVy _ _, l => l = .pc
  | .ldVxNn x _, l => l = .reg x
  | .addVxNn x _, l => l = .reg x
  | .ldVxVy x _, l => l = .reg x
  | .orVxVy x _, l => l = .reg x ∨ (s.config.logicResetsVF = true ∧ l = .reg flagReg)
  | .andVxVy x _, l => l = .reg x ∨ (s.config.logicResetsVF = true ∧ l = .reg flagReg)
  | .xorVxVy x _, l => l = .reg x ∨ (s.config.logicResetsVF = true ∧ l = .reg flagReg)
  | .addVxVy x _, l => l = .reg x ∨ l = .reg flagReg
  | .subVxVy x _, l => l = .reg x ∨ l = .reg flagReg
  | .shrVxVy x _, l => l = .reg x ∨ l = .reg flagReg
  | .subnVxVy x _, l => l = .reg x ∨ l = .reg flagReg
  | .shlVxVy x _, l => l = .reg x ∨ l = .reg flagReg
  | .sneVxVy _ _, l => l = .pc
  | .ldINnn _, l => l = .index
  | .jpV0Nnn _, l => l = .pc
  | .rndVxNn x _, l => l = .reg x ∨ l = .draws
  | .drwVxVyN _ _ _, l => l = .reg flagReg ∨ ∃ px py, l = .cell px py
  | .skpVx _, l => l = .pc
  | .sknpVx _, l => l = .pc
  | .ldVxDt x, l => l = .reg x
  | .ldVxK x, l => (s.firstPressed ≠ none ∧ l = .reg x) ∨ (s.firstPressed = none ∧ l = .pc)
  | .ldDtVx _, l => l = .dt
  | .ldStVx _, l => l = .st
  | .addIVx _, l => l = .index
  | .ldFVx _, l => l = .index
  | .ldBVx _, l => ∃ a, InData s 3 a ∧ l = .byte a
  | .ldMemVx x, l => (∃ a, InData s (x.val + 1) a ∧ l = .byte a) ∨ (s.config.indexIncrement = .xPlus1 ∧ l = .index)
  | .ldVxMem x, l => (∃ j : RegIdx, j ≤ x ∧ l = .reg j) ∨ (s.config.indexIncrement = .xPlus1 ∧ l = .index)

/-- Bit c (from the left) of row r of the sprite at I (R140). -/
def spriteBit (s : State) (r c : Nat) : Bool := (s.byteAt (s.dataBase + r)).getLsbD (7 - c)

/-- A 1 bit of the N-row sprite at I, drawn at (x0, y0), falls on the cell (px, py), with both coordinates wrapped (R141). -/
def SpriteCovers (s : State) (x0 y0 : Byte) (n : Nat) (px : Fin 64) (py : Fin 32) : Prop :=
  ∃ r c, r < n ∧ c < 8 ∧ px.val = (x0.toNat + c) % 64 ∧ py.val = (y0.toNat + r) % 32 ∧ spriteBit s r c = true

/-- The condition under which an instruction raises its own fault (R180), in the state in which it is executed. -/
def FaultCondition (s : State) : Instr → Prop
  | .nop => False
  | .cls => False
  | .ret => s.sp.val = 0
  | .jp _ => False
  | .call _ => s.sp.val = 16
  | .seVxNn _ _ => False
  | .sneVxNn _ _ => False
  | .seVxVy _ _ => False
  | .ldVxNn _ _ => False
  | .addVxNn _ _ => False
  | .ldVxVy _ _ => False
  | .orVxVy _ _ => False
  | .andVxVy _ _ => False
  | .xorVxVy _ _ => False
  | .addVxVy _ _ => False
  | .subVxVy _ _ => False
  | .shrVxVy _ _ => False
  | .subnVxVy _ _ => False
  | .shlVxVy _ _ => False
  | .sneVxVy _ _ => False
  | .ldINnn _ => False
  | .jpV0Nnn _ => s.config.jumpOffsetReg = .absent
  | .rndVxNn _ _ => False
  | .drwVxVyN _ _ n => ¬ DataInBounds s n.val
  | .skpVx x => 16 ≤ (s.reg x).toNat
  | .sknpVx x => 16 ≤ (s.reg x).toNat
  | .ldVxDt _ => False
  | .ldVxK _ => False
  | .ldDtVx _ => False
  | .ldStVx _ => False
  | .addIVx _ => False
  | .ldFVx _ => False
  | .ldBVx _ => ¬ DataInBounds s 3
  | .ldMemVx x => ¬ DataInBounds s (x.val + 1)
  | .ldVxMem x => ¬ DataInBounds s (x.val + 1)

/-- `f` is the one fault that `i` can raise in `s`, with its record: the lowest address out of bounds is I itself if I is already
out, else 4096 (R180, R181, R184). -/
def IsFaultOf (i : Instr) (s : State) (f : Fault) : Prop :=
  match i with
  | .ret => f = .stackUnderflow s.fetchAddr (encode i)
  | .call _ => f = .stackOverflow s.fetchAddr (encode i)
  | .jpV0Nnn _ => f = .unknownInstruction s.fetchAddr (encode i)
  | .skpVx x => f = .badKeyIndex s.fetchAddr (encode i) (s.reg x)
  | .sknpVx x => f = .badKeyIndex s.fetchAddr (encode i) (s.reg x)
  | .drwVxVyN _ _ _ | .ldBVx _ | .ldMemVx _ | .ldVxMem _ =>
    f = .outOfBounds s.fetchAddr (some (encode i)) (max s.dataBase 4096)
  | .nop | .cls | .jp _ | .seVxNn _ _ | .sneVxNn _ _ | .seVxVy _ _ | .ldVxNn _ _ | .addVxNn _ _ | .ldVxVy _ _ | .orVxVy _ _
  | .andVxVy _ _ | .xorVxVy _ _ | .addVxVy _ _ | .subVxVy _ _ | .shrVxVy _ _ | .subnVxVy _ _ | .shlVxVy _ _
  | .sneVxVy _ _ | .ldINnn _ | .rndVxNn _ _ | .ldVxDt _ | .ldVxK _ | .ldDtVx _ | .ldStVx _ | .addIVx _ | .ldFVx _ => False

/-- Apply a function to the next state, if there is one. -/
def mapNext (g : State → State) : Result → Result
  | .next t => .next (g t)
  | .fault f => .fault f
  | .refused r => .refused r

/-- Replace the call stack and its pointer. -/
def State.withStack (s : State) (k : Vector Word 16) (q : Fin 17) : State := { s with stack := k, sp := q }

/-- Replace the keypad. -/
def State.withKeys (s : State) (k : Vector Bool 16) : State := { s with keys := k }

/-- The instruction word in the two bytes from an address on (R44). -/
def State.wordAt (s : State) (a : Nat) : Word := wordOfBytes (s.byteAt a) (s.byteAt (a + 1))

/-- One hexadecimal digit of a pattern of R63: a register index or a count. -/
def hex (x : Fin 16) : BitVec 4 := BitVec.ofFin x

/-- The state after `k` ticks (R189). -/
def State.ticks (s : State) : Nat → State
  | 0 => s
  | k + 1 => (s.ticks k).tick

/-- The invariant of every reachable state: memory in its canonical form, pc at most 0x10FE and every stack slot at most 0x1000
(R22). The bound of sp, 16, is in its type (R24). -/
def StateInv (s : State) : Prop := s.mem.wf ∧ s.pc.toNat ≤ 0x10FE ∧ ∀ j, (s.slot j).toNat ≤ 0x1000

end Sys2Proof.Machine
end

