-- ==== Sys2Proof/Certificates/Slice0/Obligations.lean ====
section
/-! DEFINITION. The statements for the provers: what the rules of spec/ say that an instruction, a step or a host operation does.
The instructions are executed with pc already advanced past them (40_control.md R80); StepRunsTheDecodedInstruction carries each
statement to a step. Every statement quantifies over the state and so over every value of every parameter (log 1). -/

open Sys2Proof Sys2Proof.Machine

/-! Encoding. -/

/-- 30_encoding.md section 4 and 40_control.md section 2: the word of an instruction, in every value of its operands, decodes to
that instruction, in every value of JUMP_OFFSET_REG in which the form exists. The bit patterns are the spec's own supply (log 8). -/
def Obligations.DecodeOfEncodeIsTheInstruction : Prop :=
  ∀ (p : JumpOffsetReg) (i : Instr), i.wf p = true → decode p (encode i) = .instr i

/-- The other direction: a word that decodes to an instruction is that instruction's word, so that no bit of it is ignored, and
the instruction exists (30_encoding.md sections 2 and 3; patterns log 8). -/
def Obligations.EncodeOfDecodeIsTheWord : Prop :=
  ∀ (p : JumpOffsetReg) (w : Word) (i : Instr), decode p w = .instr i → encode i = w ∧ i.wf p = true

/-- 30_encoding.md R64: a word is an instruction exactly when it matches a row of the table; every other word is Unknown(w), and
executing it raises UnknownInstruction; no two rows match the same word; without BNNN every 0xBNNN word is unknown. -/
def Obligations.DecodeMatchesExactlyTheTableRows : Prop :=
  (∀ (p : JumpOffsetReg) (w : Word),
    ((∃ i, decode p w = .instr i) ↔ ∃ r ∈ opcodeRows p, r.matchesWord w = true) ∧
    ((∀ r ∈ opcodeRows p, r.matchesWord w = false) → decode p w = .unknown w) ∧
    (∀ r ∈ opcodeRows p, ∀ r' ∈ opcodeRows p, r.matchesWord w = true → r'.matchesWord w = true → r = r')) ∧
  (∀ nnn : Addr12, decode .absent (0xB#4 ++ nnn) = .unknown (0xB#4 ++ nnn)) ∧
  (∀ s : State, s.status = .running → s.pc.toNat + 1 < 4096 →
    decode s.config.jumpOffsetReg (s.wordAt s.pc.toNat) = .unknown (s.wordAt s.pc.toNat) →
    step s = .fault (.unknownInstruction s.pc (s.wordAt s.pc.toNat)))

/-- 30_encoding.md section 4: words written out digit by digit, one or two of each format, decode to the instruction that they
stand for (patterns log 8). -/
def Obligations.SampleWordsDecode : Prop :=
  decode .v0 0x0000 = .instr .nop ∧ decode .v0 0x00EE = .instr .ret ∧ decode .v0 0x124A = .instr (.jp 0x24A) ∧
  decode .vx 0xB3FF = .instr (.jpV0Nnn 0x3FF) ∧ decode .absent 0xB3FF = .unknown 0xB3FF ∧
  decode .v0 0x6A3E = .instr (.ldVxNn 0xA 0x3E) ∧ decode .v0 0x8125 = .instr (.subVxVy 1 2) ∧
  decode .v0 0xDAB5 = .instr (.drwVxVyN 0xA 0xB 5) ∧ decode .v0 0xE59E = .instr (.skpVx 5) ∧
  decode .v0 0xF265 = .instr (.ldVxMem 2) ∧ decode .v0 0x8128 = .unknown 0x8128

/-! The sequencer and its faults. -/

/-- 40_control.md section 1: a step fetches the word at pc; an unknown word faults; an instruction is executed with pc already
advanced by 2, modulo 65536; if the step cannot fetch, because pc + 1 is 4096 or more (20_memory.md section 2, the spec's choice D15,
log 15), it faults; it is taken only while status is Running, and a step of a faulted state is refused (60_exceptions.md section 1,
the spec's choice D30, log 10); and if it faults, its writes are discarded, pc's advance included, and only status changes, which
takes the record (the spec's choices D13 and D29, log 10, log 11, log 12). -/
def Obligations.StepRunsTheDecodedInstruction : Prop :=
  ∀ s : State,
    (s.status = .running → s.pc.toNat + 1 < 4096 →
      (∀ i, decode s.config.jumpOffsetReg (s.wordAt s.pc.toNat) = .instr i → step s = exec i (s.setPc (s.pc + 2))) ∧
      (∀ w, decode s.config.jumpOffsetReg (s.wordAt s.pc.toNat) = .unknown w →
        step s = .fault (.unknownInstruction s.pc (s.wordAt s.pc.toNat)))) ∧
    (s.status = .running → ¬ s.pc.toNat + 1 < 4096 → ∃ a, step s = .fault (.outOfBounds s.pc none a)) ∧
    (∀ f, s.status = .faulted f → step s = .refused .notAdmitted) ∧
    (∀ f, s.status = .running → step s = .fault f → hostCall .step s = .ok ({ s with status := .faulted f }, .fault f))

/-- 20_memory.md section 2 (the fault address and the bound are the spec's choice D15, log 15): a fetch at 4096 or above reports
pc itself, a fetch at 4095 reports 4096, and below that the word is read big-endian, at odd pc as at even pc. -/
def Obligations.FetchReadsBigEndianOrFaults : Prop :=
  ∀ s : State,
    (s.pc.toNat ≤ 4094 → fetch s = .ok (s.byteAt s.pc.toNat ++ s.byteAt (s.pc.toNat + 1))) ∧
    (s.pc.toNat = 4095 → fetch s = .error 4096) ∧
    (4096 ≤ s.pc.toNat → fetch s = .error s.pc.toNat)

/-- 60_exceptions.md section 1 (precision, terminality and the record are the spec's choices D13, D29, D30; log 10, log 12): a
faulting step seen by the host changes nothing but status, which takes the record; and after it no operation is admitted,
reset included. -/
def Obligations.FaultsArePreciseAndTerminal : Prop :=
  (∀ (s t : State) (f : Fault), hostCall .step s = .ok (t, .fault f) →
    step s = .fault f ∧ t.status = .faulted f ∧ OnlyWrites s t (fun l => l = .status) ∧
    ∀ op, hostCall op t = .error .notAdmitted) ∧
  (∀ (s : State) (f : Fault), s.status = .faulted f → ∀ op, hostCall op s = .error .notAdmitted)

/-- 60_exceptions.md section 1 (the kinds are the spec's choices D11, D12, D20; log 26): every instruction either raises the one
fault of its kind, exactly under the condition that its rule names, or completes. It never refuses. -/
def Obligations.InstructionsFaultExactlyWhenListed : Prop :=
  ∀ (i : Instr) (s : State),
    (FaultCondition s i → ∃ f, exec i s = .fault f ∧ IsFaultOf i s f) ∧
    (¬ FaultCondition s i → ∃ t, exec i s = .next t)

/-- 60_exceptions.md section 1 (the record's fields are the spec's choice D29, log 11): the record of a faulting step names the
fetch address of that step and the word it fetched, or no word if the fetch itself faulted; its code is 1..5; an OutOfBounds
names an address of 4096 or more, a BadKeyIndex a key of 16..255. -/
def Obligations.FaultRecordNamesTheStep : Prop :=
  ∀ (s : State) (f : Fault), step s = .fault f →
    f.fetchAddr = s.pc ∧
    f.fetchedWord = (if s.pc.toNat + 1 < 4096 then some (s.wordAt s.pc.toNat) else none) ∧
    1 ≤ f.code ∧ f.code ≤ 5 ∧
    (f.code = 1 → ∃ a, f.info = some a ∧ 4096 ≤ a) ∧
    (f.code = 5 → ∃ k, f.info = some k ∧ 16 ≤ k ∧ k ≤ 255)

/-! What each instruction may write, and whole-machine rules. -/

/-- 10_state.md sections 1 to 5 and 20_memory.md section 4: an instruction that completes changes no register, stack slot, memory
byte, framebuffer cell, key, timer or other field but the places that its rule names (`MayWrite`). Of these places some rest on
choices: V[F] after a logic form (the spec's open parameter D5, log 4) and after FX1E (the spec's choice D9, log 25), I after FX55
and FX65 (the spec's open parameter D8, log 5), the popped slot, which keeps its value (the spec's choice D16, log 13), and the
model's own fields: `config`, which nothing writes (log 1), and `draws`, which only CXNN writes (log 9). -/
def Obligations.EveryInstructionWritesOnlyItsPlaces : Prop :=
  ∀ (i : Instr) (s t : State), exec i s = .next t → OnlyWrites s t (MayWrite s i)

/-- 10_state.md section 1 (V[F] after a logic form and after FX1E are the spec's choices D5, D9; log 4, log 25): an instruction
that neither sets a flag nor names V[F] as its destination leaves V[F] alone, and each flag is written as 0 or 1. -/
def Obligations.FlagRegisterWriters : Prop :=
  ∀ (s t : State) (x y : RegIdx) (nn : Byte) (nnn : Addr12) (n : Count),
    (∀ i ∈ [Instr.nop, .cls, .ret, .jp nnn, .call nnn, .seVxNn x nn, .sneVxNn x nn, .seVxVy x y, .sneVxVy x y, .ldINnn nnn,
        .jpV0Nnn nnn, .skpVx x, .sknpVx x, .ldDtVx x, .ldStVx x, .addIVx x, .ldFVx x, .ldBVx x, .ldMemVx x],
      exec i s = .next t → t.reg flagReg = s.reg flagReg) ∧
    (x ≠ flagReg → ∀ i ∈ [Instr.ldVxNn x nn, .addVxNn x nn, .ldVxVy x y, .rndVxNn x nn, .ldVxDt x, .ldVxK x, .ldVxMem x],
      exec i s = .next t → t.reg flagReg = s.reg flagReg) ∧
    (x ≠ flagReg → ∀ i ∈ [Instr.orVxVy x y, .andVxVy x y, .xorVxVy x y], exec i s = .next t →
      t.reg flagReg = if s.config.logicResetsVF then 0 else s.reg flagReg) ∧
    (∀ i ∈ [Instr.addVxVy x y, .subVxVy x y, .shrVxVy x y, .subnVxVy x y, .shlVxVy x y, .drwVxVyN x y n],
      exec i s = .next t → t.reg flagReg = 0 ∨ t.reg flagReg = 1)

/-- 10_state.md R23: no instruction but 2NNN and 00EE reads or writes the stack (running it on a machine with any other stack gives
the same answer, with that stack untouched), those two make no memory access, and all slots are 0 after reset. -/
def Obligations.StackIsOnlyForCallAndReturn : Prop :=
  (∀ (i : Instr) (s : State) (k : Vector Word 16) (q : Fin 17), i ≠ .ret → (∀ nnn, i ≠ .call nnn) →
    exec i (s.withStack k q) = mapNext (fun t => t.withStack k q) (exec i s)) ∧
  (∀ (s : State) (m : Memory) (nnn : Addr12), exec .ret (s.setMem m) = mapNext (fun t => t.setMem m) (exec .ret s) ∧
    exec (.call nnn) (s.setMem m) = mapNext (fun t => t.setMem m) (exec (.call nnn) s)) ∧
  (∀ (c : Config) (j : Fin 16), (State.initial c).slot j = 0)

/-- 10_state.md R28: the framebuffer is written only by 00E0 and DXYN, and read by no instruction but DXYN: running any other
instruction on a machine with another framebuffer gives the same answer, with that framebuffer untouched; 00E0 gives the same
answer whatever the framebuffer was; DXYN turns each cell under the sprite into the opposite of what it was. The host reads cell
(x, y) as element y * 64 + x, and all cells are false after reset. -/
def Obligations.FramebufferIsOnlyForClearAndDraw : Prop :=
  (∀ (i : Instr) (s : State) (f : Framebuffer), i ≠ .cls → (∀ x y n, i ≠ .drwVxVyN x y n) →
    exec i (s.setFb f) = mapNext (fun t => t.setFb f) (exec i s)) ∧
  (∀ (s : State) (f : Framebuffer), exec .cls (s.setFb f) = exec .cls s) ∧
  (∀ (x y : RegIdx) (n : Count) (s t : State) (px : Fin 64) (py : Fin 32), exec (.drwVxVyN x y n) s = .next t →
    SpriteCovers s (s.reg x) (s.reg y) n.val px py → t.cell px py = !s.cell px py) ∧
  (∀ (s : State) (px : Fin 64) (py : Fin 32), s.fb.cells[py.val * 64 + px.val]? = some (s.cell px py)) ∧
  (∀ (c : Config) (px : Fin 64) (py : Fin 32), (State.initial c).cell px py = false)

/-- 10_state.md R30: no instruction writes the keypad; EX9E, EXA1 and FX0A read it, and no other instruction does; of the host's
operations only `set key state`, which writes it (and `reset`, which zeroes the keys), changes it; all keys are false after
reset. -/
def Obligations.KeypadIsWrittenOnlyByTheHost : Prop :=
  (∀ (i : Instr) (s : State) (k : Vector Bool 16), (∀ x, i ≠ .skpVx x ∧ i ≠ .sknpVx x ∧ i ≠ .ldVxK x) →
    exec i (s.withKeys k) = mapNext (fun t => t.withKeys k) (exec i s)) ∧
  (∀ (x : RegIdx) (s : State) (k : Fin 16), (s.reg x).toNat = k.val →
    exec (.skpVx x) s = .next (s.skipIf (s.key k)) ∧ exec (.sknpVx x) s = .next (s.skipIf (!s.key k))) ∧
  (∀ (x : RegIdx) (s : State) (k : Fin 16), s.key k = true → (∀ j, j < k → s.key j = false) →
    exec (.ldVxK x) s = .next (s.setReg x (BitVec.ofNat 8 k.val))) ∧
  (∀ (i : Instr) (s t : State), exec i s = .next t → t.keys = s.keys) ∧
  (∀ (s : State) (k : Fin 16) (b : Bool), s.status = .running →
    ∃ t, hostCall (.setKeyState k.val b) s = .ok (t, .nothing) ∧ t.key k = b) ∧
  (∀ (op : HostOp) (s t : State) (r : Reply), hostCall op s = .ok (t, r) → op ≠ .reset →
    (∀ k b, op ≠ .setKeyState k b) → t.keys = s.keys) ∧
  (∀ (c : Config) (k : Fin 16), (State.initial c).key k = false)

/-- 10_state.md R31, R32 and R33: DT is read only by FX07 and written only by FX15, ST is read by no instruction and written only
by FX18; a tick counts each down by 1 and stops at 0, and no instruction does; both are 0 after reset. -/
def Obligations.TimersChangeOnlyByTicksAndTheirWrites : Prop :=
  (∀ (i : Instr) (s : State) (b : Byte), (∀ x, i ≠ .ldVxDt x ∧ i ≠ .ldDtVx x) →
    exec i (s.setDt b) = mapNext (fun t => t.setDt b) (exec i s)) ∧
  (∀ (i : Instr) (s : State) (b : Byte), (∀ x, i ≠ .ldStVx x) →
    exec i (s.setSt b) = mapNext (fun t => t.setSt b) (exec i s)) ∧
  (∀ (s : State) (b : Byte) (x : RegIdx), exec (.ldStVx x) (s.setSt b) = exec (.ldStVx x) s ∧
    exec (.ldDtVx x) (s.setDt b) = exec (.ldDtVx x) s ∧
    exec (.ldVxDt x) s = .next (s.setReg x s.dt) ∧
    exec (.ldDtVx x) s = .next (s.setDt (s.reg x)) ∧ exec (.ldStVx x) s = .next (s.setSt (s.reg x))) ∧
  (∀ s : State, s.tick.dt.toNat = s.dt.toNat - 1 ∧ s.tick.st.toNat = s.st.toNat - 1) ∧
  (∀ c : Config, (State.initial c).dt = 0 ∧ (State.initial c).st = 0)

/-- 20_memory.md section 4: of the instructions only DXYN, FX33, FX55 and FX65 touch memory: running any other on a machine with
another memory gives the same answer, with that memory untouched; DXYN and FX65 write none. -/
def Obligations.OnlyFourInstructionsTouchMemory : Prop :=
  (∀ (i : Instr) (s : State) (m : Memory),
    (∀ x y n, i ≠ .drwVxVyN x y n) → (∀ x, i ≠ .ldBVx x ∧ i ≠ .ldMemVx x ∧ i ≠ .ldVxMem x) →
    exec i (s.setMem m) = mapNext (fun t => t.setMem m) (exec i s)) ∧
  (∀ (s t : State) (x y : RegIdx) (n : Count), exec (.drwVxVyN x y n) s = .next t → t.mem = s.mem) ∧
  (∀ (s t : State) (x : RegIdx), exec (.ldVxMem x) s = .next t → t.mem = s.mem)

/-! Reset and the invariant. -/

/-- 70_reset_and_hazards.md R230: the machine after initialize, for every value of the parameters. With the default parameters of
00_scope.md section 4 it is `State.reset`. -/
def Obligations.InitializeGivesTheResetState : Prop :=
  (∀ c : Config,
    (∀ j, (State.initial c).reg j = 0) ∧ (State.initial c).index = 0 ∧ (State.initial c).pc = 0x200 ∧
    (∀ j, (State.initial c).slot j = 0) ∧ (State.initial c).sp = 0 ∧
    (∀ a : Fin 80, (State.initial c).byteAt a.val = c.font[a.val]) ∧
    (∀ a : Nat, 80 ≤ a → a < 4096 → (State.initial c).byteAt a = 0) ∧
    (∀ px py, (State.initial c).cell px py = false) ∧ (∀ k, (State.initial c).key k = false) ∧
    (State.initial c).dt = 0 ∧ (State.initial c).st = 0 ∧ (State.initial c).status = .running) ∧
  State.initial defaultConfig = State.reset

/-- The reset state meets the invariant (10_state.md section 3). -/
def Obligations.ResetMeetsTheInvariant : Prop := StateInv State.reset

/-- 10_state.md section 3 (the bounds are the spec's own inference): from every state that meets it, a step keeps the invariant:
memory in canonical form, pc at most 0x10FE, every stack slot at most 0x1000. -/
def Obligations.StepKeepsTheInvariant : Prop := ∀ s t : State, StateInv s → step s = .next t → StateInv t

/-- 60_exceptions.md section 5: every host operation keeps the invariant, and none changes the parameters. -/
def Obligations.HostOperationsKeepTheInvariant : Prop :=
  ∀ (op : HostOp) (s t : State) (r : Reply), StateInv s → hostCall op s = .ok (t, r) → StateInv t ∧ t.config = s.config

/-- 10_state.md section 3 and 60_exceptions.md section 5: after any sequence of host operations on a new machine, with any
parameters, the invariant holds and the parameters are those it was made with. -/
def Obligations.EveryReachableStateMeetsTheInvariant : Prop :=
  ∀ (c : Config) (ops : List HostOp) (t : State) (rs : List Reply),
    hostRun ops (State.initial c) = .ok (t, rs) → StateInv t ∧ t.config = c

/-! Control transfer. -/

/-- 40_control.md R82: 0x0000 does nothing beyond the sequencer's advance of pc; that is its whole step. -/
def Obligations.NopChangesNothing : Prop :=
  ∀ (p : JumpOffsetReg) (s : State), decode p 0x0000 = .instr .nop ∧ exec .nop s = .next s ∧
    (s.status = .running → s.pc.toNat + 1 < 4096 → s.wordAt s.pc.toNat = 0x0000 → step s = .next (s.setPc (s.pc + 2)))

/-- 40_control.md R83: 0x00E0 makes all 2048 cells false and changes nothing else, V[F] included. -/
def Obligations.ClearScreenBlanksEveryCell : Prop :=
  ∀ (p : JumpOffsetReg) (s : State), decode p 0x00E0 = .instr .cls ∧
    ∃ t, exec .cls s = .next t ∧ (∀ px py, t.cell px py = false) ∧ OnlyWrites s t (fun l => ∃ px py, l = .cell px py)

/-- 40_control.md R84: 0x00EE takes the top slot's address into pc and uncounts the slot, which keeps its value; with no slot
occupied it raises StackUnderflow. -/
def Obligations.ReturnPopsTheStack : Prop :=
  ∀ (p : JumpOffsetReg) (s : State), decode p 0x00EE = .instr .ret ∧
    (∀ j : Fin 16, s.sp.val = j.val + 1 →
      ∃ t, exec .ret s = .next t ∧ t.pc = s.slot j ∧ t.sp.val = j.val ∧ OnlyWrites s t (fun l => l = .pc ∨ l = .sp)) ∧
    (s.sp.val = 0 → exec .ret s = .fault (.stackUnderflow (s.pc - 2) 0x00EE))

/-- 40_control.md R85: 0x1NNN makes pc the zero-extended NNN, odd or even. -/
def Obligations.JumpSetsPc : Prop :=
  ∀ (p : JumpOffsetReg) (nnn : Addr12) (s : State), decode p (0x1#4 ++ nnn) = .instr (.jp nnn) ∧
    ∃ t, exec (.jp nnn) s = .next t ∧ t.pc.toNat = nnn.toNat ∧ OnlyWrites s t (fun l => l = .pc)

/-- 40_control.md R86: 0x2NNN pushes pc, which is already past the CALL, and jumps; with 16 slots occupied it raises
StackOverflow. -/
def Obligations.CallPushesTheReturnAddress : Prop :=
  ∀ (p : JumpOffsetReg) (nnn : Addr12) (s : State), decode p (0x2#4 ++ nnn) = .instr (.call nnn) ∧
    (∀ j : Fin 16, s.sp.val = j.val →
      ∃ t, exec (.call nnn) s = .next t ∧ t.slot j = s.pc ∧ t.sp.val = j.val + 1 ∧ t.pc.toNat = nnn.toNat ∧
        OnlyWrites s t (fun l => l = .pc ∨ l = .sp ∨ l = .slot j)) ∧
    (s.sp.val = 16 → exec (.call nnn) s = .fault (.stackOverflow (s.pc - 2) (0x2#4 ++ nnn)))

/-- 40_control.md section 2: a RET executed anywhere later, with the stack as the CALL left it, resumes just past the CALL and
gives back the stack pointer. -/
def Obligations.ReturnResumesAfterTheCall : Prop :=
  ∀ (nnn : Addr12) (s t u : State), exec (.call nnn) s = .next t → u.stack = t.stack → u.sp = t.sp →
    ∃ v, exec .ret u = .next v ∧ v.pc = s.pc ∧ v.sp = s.sp

/-- 40_control.md section 2 (BNNN is the spec's own supply D2, log 6): pc becomes the exact sum of NNN and the offset register,
V0 or V[X] by JUMP_OFFSET_REG, not reduced modulo 4096; if the parameter is Absent the word faults as UnknownInstruction. -/
def Obligations.JumpWithOffsetAddsTheRegister : Prop :=
  ∀ (nnn : Addr12) (s : State),
    decode .v0 (0xB#4 ++ nnn) = .instr (.jpV0Nnn nnn) ∧ decode .vx (0xB#4 ++ nnn) = .instr (.jpV0Nnn nnn) ∧
    (s.config.jumpOffsetReg = .v0 →
      ∃ t, exec (.jpV0Nnn nnn) s = .next t ∧ t.pc.toNat = nnn.toNat + (s.reg 0).toNat ∧ OnlyWrites s t (fun l => l = .pc)) ∧
    (s.config.jumpOffsetReg = .vx → ∀ x : RegIdx, nnn.toNat / 256 = x.val →
      ∃ t, exec (.jpV0Nnn nnn) s = .next t ∧ t.pc.toNat = nnn.toNat + (s.reg x).toNat ∧ OnlyWrites s t (fun l => l = .pc)) ∧
    (s.config.jumpOffsetReg = .absent →
      exec (.jpV0Nnn nnn) s = .fault (.unknownInstruction (s.pc - 2) (0xB#4 ++ nnn)))

/-! Conditional skips. -/

/-- 41_skip.md R101 and R102: 3XNN and 4XNN advance pc by 2 more, modulo 65536, if V[X] equals NN or differs from it, look
at no other word, and change nothing else. -/
def Obligations.ImmediateSkips : Prop :=
  ∀ (p : JumpOffsetReg) (x : RegIdx) (nn : Byte) (s : State),
    decode p (0x3#4 ++ hex x ++ nn) = .instr (.seVxNn x nn) ∧ decode p (0x4#4 ++ hex x ++ nn) = .instr (.sneVxNn x nn) ∧
    (∃ t, exec (.seVxNn x nn) s = .next t ∧ t.pc = (if s.reg x = nn then s.pc + 2 else s.pc) ∧
      OnlyWrites s t (fun l => l = .pc)) ∧
    (∃ t, exec (.sneVxNn x nn) s = .next t ∧ t.pc = (if s.reg x ≠ nn then s.pc + 2 else s.pc) ∧
      OnlyWrites s t (fun l => l = .pc))

/-- 41_skip.md R103 and R104: 5XY0 and 9XY0 skip if V[X] and V[Y] are equal, or differ; every other low nibble is an unknown
word. -/
def Obligations.RegisterSkips : Prop :=
  ∀ (p : JumpOffsetReg) (x y : RegIdx) (k : Fin 16) (s : State),
    decode p (0x5#4 ++ hex x ++ hex y ++ 0x0#4) = .instr (.seVxVy x y) ∧
    decode p (0x9#4 ++ hex x ++ hex y ++ 0x0#4) = .instr (.sneVxVy x y) ∧
    (k ≠ 0 → decode p (0x5#4 ++ hex x ++ hex y ++ hex k) = .unknown (0x5#4 ++ hex x ++ hex y ++ hex k) ∧
      decode p (0x9#4 ++ hex x ++ hex y ++ hex k) = .unknown (0x9#4 ++ hex x ++ hex y ++ hex k)) ∧
    (∃ t, exec (.seVxVy x y) s = .next t ∧ t.pc = (if s.reg x = s.reg y then s.pc + 2 else s.pc) ∧
      OnlyWrites s t (fun l => l = .pc)) ∧
    (∃ t, exec (.sneVxVy x y) s = .next t ∧ t.pc = (if s.reg x ≠ s.reg y then s.pc + 2 else s.pc) ∧
      OnlyWrites s t (fun l => l = .pc))

/-! Arithmetic. -/

/-- 42_alu.md R115 and R116: 6XNN sets V[X] to NN; 7XNN adds NN to V[X] modulo 256, with no flag: V[F] changes only if X = F. -/
def Obligations.ImmediateLoadAndAdd : Prop :=
  ∀ (p : JumpOffsetReg) (x : RegIdx) (nn : Byte) (s : State),
    decode p (0x6#4 ++ hex x ++ nn) = .instr (.ldVxNn x nn) ∧ decode p (0x7#4 ++ hex x ++ nn) = .instr (.addVxNn x nn) ∧
    (∃ t, exec (.ldVxNn x nn) s = .next t ∧ t.reg x = nn ∧ OnlyWrites s t (fun l => l = .reg x)) ∧
    (∃ t, exec (.addVxNn x nn) s = .next t ∧ (t.reg x).toNat = ((s.reg x).toNat + nn.toNat) % 256 ∧
      OnlyWrites s t (fun l => l = .reg x))

/-- 42_alu.md R117: 8XY0 copies V[Y] to V[X]; with X = Y it changes nothing. -/
def Obligations.AssignCopiesTheRegister : Prop :=
  ∀ (p : JumpOffsetReg) (x y : RegIdx) (s : State),
    decode p (0x8#4 ++ hex x ++ hex y ++ 0x0#4) = .instr (.ldVxVy x y) ∧
    (∃ t, exec (.ldVxVy x y) s = .next t ∧ t.reg x = s.reg y ∧ OnlyWrites s t (fun l => l = .reg x)) ∧
    (∃ t, exec (.ldVxVy x x) s = .next t ∧ OnlyWrites s t (fun _ => False))

/-- 42_alu.md section 3 (V[F] after a logic form is the spec's open parameter D5, log 4): 8XY1, 8XY2 and 8XY3 write the bitwise OR,
AND and XOR of the old values to V[X]; V[F] is written only if X = F, or with 0, last, if LOGIC_RESETS_VF. -/
def Obligations.LogicForms : Prop :=
  ∀ (p : JumpOffsetReg) (x y : RegIdx) (s : State),
    decode p (0x8#4 ++ hex x ++ hex y ++ 0x1#4) = .instr (.orVxVy x y) ∧
    decode p (0x8#4 ++ hex x ++ hex y ++ 0x2#4) = .instr (.andVxVy x y) ∧
    decode p (0x8#4 ++ hex x ++ hex y ++ 0x3#4) = .instr (.xorVxVy x y) ∧
    ∀ i r, (i, r) ∈ [(Instr.orVxVy x y, s.reg x ||| s.reg y), (.andVxVy x y, s.reg x &&& s.reg y),
        (.xorVxVy x y, s.reg x ^^^ s.reg y)] →
      ∃ t, exec i s = .next t ∧
        (∀ j, t.reg j = if s.config.logicResetsVF = true ∧ j = flagReg then 0 else if j = x then r else s.reg j) ∧
        OnlyWrites s t (fun l => ∃ j, l = .reg j)

/-- 42_alu.md section 3 (the flag is written after the result: the spec's choice D6, log 14): 8XY4 writes the sum modulo 256 to
V[X] and then the carry out of bit 7 to V[F]. -/
def Obligations.AddWithCarry : Prop :=
  ∀ (p : JumpOffsetReg) (x y : RegIdx) (s : State),
    decode p (0x8#4 ++ hex x ++ hex y ++ 0x4#4) = .instr (.addVxVy x y) ∧
    ∃ t, exec (.addVxVy x y) s = .next t ∧
      (t.reg flagReg).toNat = ((s.reg x).toNat + (s.reg y).toNat) / 256 ∧
      (x ≠ flagReg → (t.reg x).toNat = ((s.reg x).toNat + (s.reg y).toNat) % 256) ∧
      OnlyWrites s t (fun l => l = .reg x ∨ l = .reg flagReg)

/-- 42_alu.md sections 1 and 3 (the flag's polarity is the spec's open parameter D3, its order D6; log 2, log 14): 8XY5 writes
V[X] - V[Y], 8XY7 writes V[Y] - V[X], modulo 256, to V[X], and then V[F]: 1 if there is no borrow, or if there is one, by
SUB_VF_POLARITY. -/
def Obligations.SubtractAndReverseSubtract : Prop :=
  ∀ (p : JumpOffsetReg) (x y : RegIdx) (s : State),
    decode p (0x8#4 ++ hex x ++ hex y ++ 0x5#4) = .instr (.subVxVy x y) ∧
    decode p (0x8#4 ++ hex x ++ hex y ++ 0x7#4) = .instr (.subnVxVy x y) ∧
    ∀ i m d, (i, m, d) ∈ [(Instr.subVxVy x y, (s.reg x).toNat, (s.reg y).toNat),
        (.subnVxVy x y, (s.reg y).toNat, (s.reg x).toNat)] →
      ∃ t, exec i s = .next t ∧
        (s.config.subPolarity = .notBorrow → t.reg flagReg = if d ≤ m then 1 else 0) ∧
        (s.config.subPolarity = .borrow → t.reg flagReg = if m < d then 1 else 0) ∧
        (x ≠ flagReg → (t.reg x).toNat = (m + 256 - d) % 256) ∧
        OnlyWrites s t (fun l => l = .reg x ∨ l = .reg flagReg)

/-- 42_alu.md sections 1 and 3 (the shifted register is the spec's open parameter D4, the order D6; log 3, log 14): 8XY6 and 8XYE
write the source shifted right or left by one to V[X], and then the bit shifted out to V[F]; the source is V[X] or V[Y] by
SHIFT_SOURCE. -/
def Obligations.ShiftsByOne : Prop :=
  ∀ (p : JumpOffsetReg) (x y z : RegIdx) (s : State),
    decode p (0x8#4 ++ hex x ++ hex y ++ 0x6#4) = .instr (.shrVxVy x y) ∧
    decode p (0x8#4 ++ hex x ++ hex y ++ 0xE#4) = .instr (.shlVxVy x y) ∧
    (z = (match s.config.shiftSource with | .vx => x | .vy => y) →
      (∃ t, exec (.shrVxVy x y) s = .next t ∧ (t.reg flagReg).toNat = (s.reg z).toNat % 2 ∧
        (x ≠ flagReg → (t.reg x).toNat = (s.reg z).toNat / 2) ∧
        OnlyWrites s t (fun l => l = .reg x ∨ l = .reg flagReg)) ∧
      (∃ t, exec (.shlVxVy x y) s = .next t ∧ (t.reg flagReg).toNat = (s.reg z).toNat / 128 ∧
        (x ≠ flagReg → (t.reg x).toNat = (s.reg z).toNat * 2 % 256) ∧
        OnlyWrites s t (fun l => l = .reg x ∨ l = .reg flagReg)))

/-! Index register and random. -/

/-- 43_index_random.md R130: ANNN makes I the zero-extended NNN and accesses no memory. -/
def Obligations.LoadIndexSetsI : Prop :=
  ∀ (p : JumpOffsetReg) (nnn : Addr12) (s : State), decode p (0xA#4 ++ nnn) = .instr (.ldINnn nnn) ∧
    ∃ t, exec (.ldINnn nnn) s = .next t ∧ t.index.toNat = nnn.toNat ∧ OnlyWrites s t (fun l => l = .index)

/-- 43_index_random.md (that V[F] stays is the spec's choice D9, log 25): FX1E adds V[X] to I modulo 65536 and leaves V[F]. -/
def Obligations.AddToIndexWraps : Prop :=
  ∀ (p : JumpOffsetReg) (x : RegIdx) (s : State), decode p (0xF#4 ++ hex x ++ 0x1E#8) = .instr (.addIVx x) ∧
    ∃ t, exec (.addIVx x) s = .next t ∧ t.index.toNat = (s.index.toNat + (s.reg x).toNat) % 65536 ∧
      OnlyWrites s t (fun l => l = .index)

/-- 43_index_random.md R133: CXNN writes a drawn byte AND NN to V[X], for some byte that the draw answered: bits of V[X] where NN
has a 0 are 0, NN = 0x00 gives 0 and NN = 0xFF gives the draw itself. The draw is a free value (log 9): nothing is claimed of it. -/
def Obligations.RandomIsMaskedByNn : Prop :=
  ∀ (p : JumpOffsetReg) (x : RegIdx) (nn : Byte) (s : State), decode p (0xC#4 ++ hex x ++ nn) = .instr (.rndVxNn x nn) ∧
    ∃ t r, exec (.rndVxNn x nn) s = .next t ∧ r = Config.randomByte s.draws ∧ t.reg x = r &&& nn ∧
      (∀ k, nn.getLsbD k = false → (t.reg x).getLsbD k = false) ∧ (nn = 0x00 → t.reg x = 0) ∧ (nn = 0xFF → t.reg x = r) ∧
      t.draws = s.draws + 1 ∧ OnlyWrites s t (fun l => l = .reg x ∨ l = .draws)

/-! Sprite draw. -/

/-- 44_display.md sections R140 to R142 (that operands are read first and that no cell changes on a fault are the spec's choices D7,
D13; log 12, log 14): if every sprite byte exists, DXYN turns over exactly the cells under a 1 bit, at coordinates that wrap,
and sets V[F] to 1 if one of them was lit and to 0 otherwise; if not, it faults with the lowest address that does not exist. -/
def Obligations.DrawTogglesTheSprite : Prop :=
  ∀ (p : JumpOffsetReg) (x y : RegIdx) (n : Count) (s : State),
    decode p (0xD#4 ++ hex x ++ hex y ++ hex n) = .instr (.drwVxVyN x y n) ∧
    (DataInBounds s n.val → ∃ t, exec (.drwVxVyN x y n) s = .next t ∧
      (∀ px py, SpriteCovers s (s.reg x) (s.reg y) n.val px py → t.cell px py = !s.cell px py) ∧
      (∀ px py, ¬ SpriteCovers s (s.reg x) (s.reg y) n.val px py → t.cell px py = s.cell px py) ∧
      ((∃ px py, SpriteCovers s (s.reg x) (s.reg y) n.val px py ∧ s.cell px py = true) → t.reg flagReg = 1) ∧
      ((∀ px py, SpriteCovers s (s.reg x) (s.reg y) n.val px py → s.cell px py = false) → t.reg flagReg = 0) ∧
      OnlyWrites s t (fun l => l = .reg flagReg ∨ ∃ px py, l = .cell px py)) ∧
    (¬ DataInBounds s n.val → exec (.drwVxVyN x y n) s =
      .fault (.outOfBounds (s.pc - 2) (some (0xD#4 ++ hex x ++ hex y ++ hex n)) (max s.index.toNat 4096)))

/-- 44_display.md R143: a one-row sprite of eight 1 bits drawn at (63, 31) toggles column 63 and columns 0..6 of row 31, and no
other cell. -/
def Obligations.DrawWrapsAtTheCorner : Prop :=
  ∀ (x y : RegIdx) (s : State), s.reg x = 63 → s.reg y = 31 → s.index.toNat < 4096 → s.byteAt s.index.toNat = 0xFF →
    ∃ t, exec (.drwVxVyN x y 1) s = .next t ∧
      ∀ px py, t.cell px py = if py = 31 ∧ (px = 63 ∨ px.val ≤ 6) then !s.cell px py else s.cell px py

/-- 44_display.md section R141 and 95_test_vectors.md E3: drawing the same sprite twice at the same place gives back every cell; if
the cells under it were all unlit before, and there is one, the second draw collides. -/
def Obligations.DrawingTwiceRestoresTheScreen : Prop :=
  ∀ (x y : RegIdx) (n : Count) (s t : State), x ≠ flagReg → y ≠ flagReg → exec (.drwVxVyN x y n) s = .next t →
    ∃ u, exec (.drwVxVyN x y n) t = .next u ∧ (∀ px py, u.cell px py = s.cell px py) ∧
      ((∃ px py, SpriteCovers s (s.reg x) (s.reg y) n.val px py) →
        (∀ px py, SpriteCovers s (s.reg x) (s.reg y) n.val px py → s.cell px py = false) → u.reg flagReg = 1)

/-! Key-state skips. -/

/-- 45_key_skip.md (that an index of 16 or more is a fault is the spec's choice D12, log 16): with V[X] below 16, EX9E skips if the
key it names is pressed, EXA1 if it is not, and nothing else changes; with V[X] of 16 or more both raise BadKeyIndex. -/
def Obligations.KeySkips : Prop :=
  ∀ (p : JumpOffsetReg) (x : RegIdx) (s : State),
    decode p (0xE#4 ++ hex x ++ 0x9E#8) = .instr (.skpVx x) ∧ decode p (0xE#4 ++ hex x ++ 0xA1#8) = .instr (.sknpVx x) ∧
    (∀ k : Fin 16, (s.reg x).toNat = k.val →
      (∃ t, exec (.skpVx x) s = .next t ∧ t.pc = (if s.key k = true then s.pc + 2 else s.pc) ∧
        OnlyWrites s t (fun l => l = .pc)) ∧
      (∃ t, exec (.sknpVx x) s = .next t ∧ t.pc = (if s.key k = false then s.pc + 2 else s.pc) ∧
        OnlyWrites s t (fun l => l = .pc))) ∧
    (16 ≤ (s.reg x).toNat →
      exec (.skpVx x) s = .fault (.badKeyIndex (s.pc - 2) (0xE#4 ++ hex x ++ 0x9E#8) (s.reg x)) ∧
      exec (.sknpVx x) s = .fault (.badKeyIndex (s.pc - 2) (0xE#4 ++ hex x ++ 0xA1#8) (s.reg x)))

/-! The F family. -/

/-- 46_f_family.md R160 and R162: FX07 copies DT to V[X]; FX15 copies V[X] to DT. -/
def Obligations.DelayTimerReadAndSet : Prop :=
  ∀ (p : JumpOffsetReg) (x : RegIdx) (s : State),
    decode p (0xF#4 ++ hex x ++ 0x07#8) = .instr (.ldVxDt x) ∧ decode p (0xF#4 ++ hex x ++ 0x15#8) = .instr (.ldDtVx x) ∧
    (∃ t, exec (.ldVxDt x) s = .next t ∧ t.reg x = s.dt ∧ OnlyWrites s t (fun l => l = .reg x)) ∧
    (∃ t, exec (.ldDtVx x) s = .next t ∧ t.dt = s.reg x ∧ OnlyWrites s t (fun l => l = .dt) ∧
      t.tick.dt.toNat = (s.reg x).toNat - 1)

/-- 46_f_family.md R161: FX0A writes the lowest pressed key to V[X] and goes on; with no key pressed it takes pc back by 2, modulo
65536, and writes nothing else, so that its own step leaves pc where it was. -/
def Obligations.KeyWaitTakesTheLowestKey : Prop :=
  ∀ (p : JumpOffsetReg) (x : RegIdx) (s : State), decode p (0xF#4 ++ hex x ++ 0x0A#8) = .instr (.ldVxK x) ∧
    (∀ k : Fin 16, s.key k = true → (∀ j, j < k → s.key j = false) →
      ∃ t, exec (.ldVxK x) s = .next t ∧ (t.reg x).toNat = k.val ∧ OnlyWrites s t (fun l => l = .reg x)) ∧
    ((∀ k, s.key k = false) →
      ∃ t, exec (.ldVxK x) s = .next t ∧ t.pc = s.pc - 2 ∧ OnlyWrites s t (fun l => l = .pc)) ∧
    (s.status = .running → s.pc.toNat + 1 < 4096 → s.wordAt s.pc.toNat = 0xF#4 ++ hex x ++ 0x0A#8 → (∀ k, s.key k = false) →
      step s = .next s)

/-- 46_f_family.md R163: FX18 copies V[X] to ST; with V[X] = n the n-th tick after it beeps and no other tick does, so that V[X] = 0
gives no beep. -/
def Obligations.SoundTimerBeepsAtTheNthTick : Prop :=
  ∀ (p : JumpOffsetReg) (x : RegIdx) (s : State), decode p (0xF#4 ++ hex x ++ 0x18#8) = .instr (.ldStVx x) ∧
    ∃ t, exec (.ldStVx x) s = .next t ∧ t.st = s.reg x ∧ OnlyWrites s t (fun l => l = .st) ∧
      ∀ k, (t.ticks k).beep = true ↔ k + 1 = (s.reg x).toNat

/-- 46_f_family.md R164: FX29 makes I five times the low nibble of V[X] and accesses no memory. -/
def Obligations.FontAddressOfTheLowNibble : Prop :=
  ∀ (p : JumpOffsetReg) (x : RegIdx) (s : State), decode p (0xF#4 ++ hex x ++ 0x29#8) = .instr (.ldFVx x) ∧
    ∃ t, exec (.ldFVx x) s = .next t ∧ t.index.toNat = (s.reg x).toNat % 16 * 5 ∧ OnlyWrites s t (fun l => l = .index)

/-- 46_f_family.md R165: if the three bytes from I exist, FX33 writes the hundreds, tens and ones digits of V[X] there and nothing
else; if not, it faults with the lowest address that does not exist. -/
def Obligations.BcdWritesThreeDigits : Prop :=
  ∀ (p : JumpOffsetReg) (x : RegIdx) (s : State), decode p (0xF#4 ++ hex x ++ 0x33#8) = .instr (.ldBVx x) ∧
    (s.index.toNat + 2 < 4096 → ∃ t, exec (.ldBVx x) s = .next t ∧
      (t.byteAt s.index.toNat).toNat = (s.reg x).toNat / 100 ∧
      (t.byteAt (s.index.toNat + 1)).toNat = (s.reg x).toNat / 10 % 10 ∧
      (t.byteAt (s.index.toNat + 2)).toNat = (s.reg x).toNat % 10 ∧
      OnlyWrites s t (fun l => ∃ a, InData s 3 a ∧ l = .byte a)) ∧
    (4096 ≤ s.index.toNat + 2 → exec (.ldBVx x) s =
      .fault (.outOfBounds (s.pc - 2) (some (0xF#4 ++ hex x ++ 0x33#8)) (max s.index.toNat 4096)))

/-- 46_f_family.md, register dump (I afterwards is the spec's open parameter D8, log 5): if the bytes I..I + X exist, FX55 writes
V[0]..V[X] there, inclusive of X, and nothing else, but I if LOADSTORE_I_INCREMENT = XPlus1; if not, it faults. -/
def Obligations.RegisterDumpStoresVZeroToVX : Prop :=
  ∀ (p : JumpOffsetReg) (x : RegIdx) (s : State), decode p (0xF#4 ++ hex x ++ 0x55#8) = .instr (.ldMemVx x) ∧
    (s.index.toNat + x.val < 4096 → ∃ t, exec (.ldMemVx x) s = .next t ∧
      (∀ j, j ≤ x → t.byteAt (s.index.toNat + j.val) = s.reg j) ∧
      (s.config.indexIncrement = .unchanged → t.index = s.index) ∧
      (s.config.indexIncrement = .xPlus1 → t.index.toNat = (s.index.toNat + x.val + 1) % 65536) ∧
      OnlyWrites s t (fun l => l = .index ∨ ∃ a, InData s (x.val + 1) a ∧ l = .byte a)) ∧
    (4096 ≤ s.index.toNat + x.val → exec (.ldMemVx x) s =
      .fault (.outOfBounds (s.pc - 2) (some (0xF#4 ++ hex x ++ 0x55#8)) (max s.index.toNat 4096)))

/-- 46_f_family.md, register load (I afterwards is the spec's open parameter D8, log 5): if the bytes I..I + X exist, FX65 copies
them to V[0]..V[X], inclusive of X, and changes nothing else, but I if LOADSTORE_I_INCREMENT = XPlus1; if not, it faults. -/
def Obligations.RegisterLoadFillsVZeroToVX : Prop :=
  ∀ (p : JumpOffsetReg) (x : RegIdx) (s : State), decode p (0xF#4 ++ hex x ++ 0x65#8) = .instr (.ldVxMem x) ∧
    (s.index.toNat + x.val < 4096 → ∃ t, exec (.ldVxMem x) s = .next t ∧
      (∀ j, j ≤ x → t.reg j = s.byteAt (s.index.toNat + j.val)) ∧
      (s.config.indexIncrement = .unchanged → t.index = s.index) ∧
      (s.config.indexIncrement = .xPlus1 → t.index.toNat = (s.index.toNat + x.val + 1) % 65536) ∧
      OnlyWrites s t (fun l => l = .index ∨ ∃ j, j ≤ x ∧ l = .reg j)) ∧
    (4096 ≤ s.index.toNat + x.val → exec (.ldVxMem x) s =
      .fault (.outOfBounds (s.pc - 2) (some (0xF#4 ++ hex x ++ 0x65#8)) (max s.index.toNat 4096)))

/-- 46_f_family.md, corner case of register load: FX65 after FX55, with the same X, the same I and the memory untouched in between,
restores V[0]..V[X], whatever the registers then hold. -/
def Obligations.LoadAfterDumpRestoresRegisters : Prop :=
  ∀ (x : RegIdx) (s t u : State), exec (.ldMemVx x) s = .next t → u.mem = t.mem → u.index = s.index →
    ∃ v, exec (.ldVxMem x) u = .next v ∧ ∀ j, j ≤ x → v.reg j = s.reg j

/-! Memory. -/

/-- 20_memory.md R41 and R42: MemRead and MemWrite fault at an address of 4096 or more; below it MemRead answers the byte there, and
MemWrite makes it the byte written and leaves every other byte. -/
def Obligations.MemoryReadAndWriteOneByte : Prop :=
  ∀ (m : Memory) (a : Nat) (b : Byte),
    (4096 ≤ a → memRead m a = .error a ∧ memWrite m a b = .error a) ∧
    (a < 4096 → memRead m a = .ok (m.read a) ∧
      ∃ m', memWrite m a b = .ok m' ∧ memRead m' a = .ok b ∧ ∀ c, c ≠ a → memRead m' c = memRead m c)

/-- 20_memory.md section 6 (the spec's inference from its own rules): after FX55, with I and pc left as they are, the very next fetch
at an address it stored to reads the stored bytes: self-modifying code needs no delay. -/
def Obligations.FetchSeesTheStoredBytes : Prop :=
  ∀ (x : RegIdx) (s t : State) (j k : RegIdx), exec (.ldMemVx x) s = .next t → j.val + 1 = k.val → k ≤ x →
    s.pc.toNat = s.index.toNat + j.val → fetch t = .ok (s.reg j ++ s.reg k)

/-! The host interface. -/

/-- 60_exceptions.md R189: a tick on a running core counts DT and ST down by 1 if they are not 0, changes nothing else, and returns
the beep, which is whether ST was 1; on a faulted core it is not admitted. -/
def Obligations.TickCountsBothTimersDown : Prop :=
  (∀ s : State, s.status = .running →
    ∃ t, hostCall .advanceTimers s = .ok (t, .beep (decide (s.st = 1))) ∧
      t.dt = (if s.dt = 0 then 0 else s.dt - 1) ∧ t.st = (if s.st = 0 then 0 else s.st - 1) ∧
      OnlyWrites s t (fun l => l = .dt ∨ l = .st)) ∧
  (∀ (s : State) (f : Fault), s.status = .faulted f → hostCall .advanceTimers s = .error .notAdmitted)

/-- 70_reset_and_hazards.md R231: reset is admitted on a running core and gives the state of initialize, whatever came before, the
font region and the keys included. Nothing is claimed of the count of draws, which is the model's own (log 9). -/
def Obligations.ResetRestoresTheInitialState : Prop :=
  ∀ s : State, s.status = .running →
    ∃ t, hostCall .reset s = .ok (t, .nothing) ∧ OnlyWrites (State.initial s.config) t (fun l => l = .draws)

/-- 70_reset_and_hazards.md, load program (that it is admitted at any time is the spec's choice D23, log 18): an image of at most
3584 bytes is copied to 0x200 and up and nothing else changes; a longer one is rejected and changes nothing. -/
def Obligations.LoadProgramCopiesOrRejects : Prop :=
  ∀ (s : State) (image : List Byte), s.status = .running →
    (image.length ≤ 3584 → ∃ t, hostCall (.loadProgram image) s = .ok (t, .ok) ∧
      (∀ j, ∀ h : j < image.length, t.byteAt (0x200 + j) = image[j]) ∧
      OnlyWrites s t (fun l => ∃ a, 0x200 ≤ a ∧ a < 0x200 + image.length ∧ l = .byte a)) ∧
    (3584 < image.length → hostCall (.loadProgram image) s = .ok (s, .loadTooLarge))

/-- 60_exceptions.md, set key state (the refusal is the spec's choice D32, log 18): an index in 0..15 sets that one key and changes
nothing else; any other is refused. -/
def Obligations.SetKeyStateSetsOneKey : Prop :=
  ∀ (s : State) (n : Nat) (b : Bool), s.status = .running →
    (∀ k : Fin 16, n = k.val → ∃ t, hostCall (.setKeyState n b) s = .ok (t, .nothing) ∧ t.key k = b ∧
      OnlyWrites s t (fun l => l = .key k)) ∧
    (16 ≤ n → hostCall (.setKeyState n b) s = .error (.keyIndexOutOfRange n))

/-- 60_exceptions.md R200: read framebuffer returns 2048 cells, element y * 64 + x being fb[x, y], and changes no state. -/
def Obligations.ReadFramebufferIsRowMajor : Prop :=
  ∀ s : State, s.status = .running →
    ∃ l : List Bool, hostCall .readFramebuffer s = .ok (s, .cells l) ∧ l.length = 2048 ∧
      ∀ (px : Fin 64) (py : Fin 32), l[py.val * 64 + px.val]? = some (s.cell px py)
end

