-- ==== Sys2Proof/Laws/Decode.lean ====
section
/-! SUPPORT. The fields of a word and the encoder's formats as arithmetic on naturals, so that decode and encode meet by omega. -/

namespace Sys2Proof

theorem fieldFamily_toNat (w : Word) : (fieldFamily w).toNat = w.toNat / 4096 := by
  simp [fieldFamily, Nat.shiftRight_eq_div_pow]; omega

theorem fieldX_val (w : Word) : (fieldX w).val = w.toNat / 256 % 16 := by
  simp [fieldX, Nat.shiftRight_eq_div_pow]

theorem fieldY_val (w : Word) : (fieldY w).val = w.toNat / 16 % 16 := by
  simp [fieldY, Nat.shiftRight_eq_div_pow]

theorem fieldN_val (w : Word) : (fieldN w).val = w.toNat % 16 := by
  simp [fieldN]

theorem fieldNN_toNat (w : Word) : (fieldNN w).toNat = w.toNat % 256 := by
  simp [fieldNN]

theorem fieldNNN_toNat (w : Word) : (fieldNNN w).toNat = w.toNat % 4096 := by
  simp [fieldNNN]

theorem encodeAddr_toNat (h : BitVec 4) (nnn : Addr12) :
    (encodeAddr h nnn).toNat = h.toNat * 4096 + nnn.toNat := by
  show @BitVec.toNat (4 + 12) _ = _
  rw [encodeAddr, BitVec.toNat_append, ← Nat.shiftLeft_add_eq_or_of_lt nnn.isLt, Nat.shiftLeft_eq]

theorem encodeRegImm_toNat (h : BitVec 4) (x : RegIdx) (nn : Byte) :
    (encodeRegImm h x nn).toNat = h.toNat * 4096 + x.val * 256 + nn.toNat := by
  show @BitVec.toNat (4 + 4 + 8) _ = _
  rw [encodeRegImm, BitVec.toNat_append, BitVec.toNat_append, ← Nat.shiftLeft_add_eq_or_of_lt nn.isLt,
    ← Nat.shiftLeft_add_eq_or_of_lt (BitVec.isLt _)]
  simp only [Nat.shiftLeft_eq, BitVec.toNat_ofFin]; omega

theorem encodeRegRegN_toNat (h : BitVec 4) (x y : RegIdx) (n : Count) :
    (encodeRegRegN h x y n).toNat = h.toNat * 4096 + x.val * 256 + y.val * 16 + n.val := by
  show @BitVec.toNat (4 + 4 + 4 + 4) _ = _
  rw [encodeRegRegN, BitVec.toNat_append, BitVec.toNat_append, BitVec.toNat_append,
    ← Nat.shiftLeft_add_eq_or_of_lt (BitVec.isLt _), ← Nat.shiftLeft_add_eq_or_of_lt (BitVec.isLt _),
    ← Nat.shiftLeft_add_eq_or_of_lt (BitVec.isLt _)]
  simp only [Nat.shiftLeft_eq, BitVec.toNat_ofFin]; omega

/-! A word is the encoding of its own fields. -/

theorem encodeAddr_fields {w : Word} {h : BitVec 4} (hf : (fieldFamily w).toNat = h.toNat) :
    encodeAddr h (fieldNNN w) = w := by
  apply BitVec.eq_of_toNat_eq; rw [encodeAddr_toNat, fieldNNN_toNat, ← hf, fieldFamily_toNat]; omega

theorem encodeRegImm_fields {w : Word} {h : BitVec 4} {nn : Byte} (hf : (fieldFamily w).toNat = h.toNat)
    (hn : (fieldNN w).toNat = nn.toNat) : encodeRegImm h (fieldX w) nn = w := by
  apply BitVec.eq_of_toNat_eq
  rw [encodeRegImm_toNat, fieldX_val, ← hn, fieldNN_toNat, ← hf, fieldFamily_toNat]; omega

theorem encodeRegRegN_fields {w : Word} {h : BitVec 4} {n : Count} (hf : (fieldFamily w).toNat = h.toNat)
    (hn : (fieldN w).val = n.val) : encodeRegRegN h (fieldX w) (fieldY w) n = w := by
  apply BitVec.eq_of_toNat_eq
  rw [encodeRegRegN_toNat, fieldX_val, fieldY_val, ← hn, fieldN_val, ← hf, fieldFamily_toNat]; omega

/-! What each family's decoder answers: an instruction whose word is the one decoded. -/

theorem encode_of_decode0 {w : Word} {i : Instr} (h : decode0 w = .instr i) :
    encode i = w ∧ ∀ p, i.wf p = true := by
  unfold decode0 at h
  split at h
  · obtain rfl := Decoded.instr.inj h; exact ⟨Eq.symm ‹_›, fun _ => rfl⟩
  · split at h
    · obtain rfl := Decoded.instr.inj h; exact ⟨Eq.symm ‹_›, fun _ => rfl⟩
    · split at h
      · obtain rfl := Decoded.instr.inj h; exact ⟨Eq.symm ‹_›, fun _ => rfl⟩
      · exact Decoded.noConfusion h

theorem encode_of_decodeLow0 {w : Word} {i j : Instr} (h : decodeLow0 w j = .instr i) :
    i = j ∧ (fieldN w).val = 0 := by
  unfold decodeLow0 at h
  split at h
  · exact ⟨(Decoded.instr.inj h).symm, by rename_i e; rw [e]; rfl⟩
  · exact Decoded.noConfusion h

theorem encode_of_decode8 {w : Word} {i : Instr} (hf : (fieldFamily w).toNat = 8) (h : decode8 w = .instr i) :
    encode i = w ∧ ∀ p, i.wf p = true := by
  unfold decode8 at h
  split at h
  case h_10 => exact Decoded.noConfusion h
  all_goals obtain rfl := Decoded.instr.inj h; exact ⟨encodeRegRegN_fields hf ‹_›, fun _ => rfl⟩

theorem encode_of_decodeB {p : JumpOffsetReg} {w : Word} {i : Instr} (hf : (fieldFamily w).toNat = 0xB)
    (h : decodeB p w = .instr i) : encode i = w ∧ i.wf p = true := by
  cases p with
  | absent => exact Decoded.noConfusion h
  | v0 => obtain rfl := Decoded.instr.inj h; exact ⟨encodeAddr_fields hf, rfl⟩
  | vx => obtain rfl := Decoded.instr.inj h; exact ⟨encodeAddr_fields hf, rfl⟩

theorem encode_of_decodeE {w : Word} {i : Instr} (hf : (fieldFamily w).toNat = 0xE) (h : decodeE w = .instr i) :
    encode i = w ∧ ∀ p, i.wf p = true := by
  unfold decodeE at h
  split at h
  case h_3 => exact Decoded.noConfusion h
  all_goals obtain rfl := Decoded.instr.inj h; exact ⟨encodeRegImm_fields hf ‹_›, fun _ => rfl⟩

theorem encode_of_decodeF {w : Word} {i : Instr} (hf : (fieldFamily w).toNat = 0xF) (h : decodeF w = .instr i) :
    encode i = w ∧ ∀ p, i.wf p = true := by
  unfold decodeF at h
  split at h
  case h_10 => exact Decoded.noConfusion h
  all_goals obtain rfl := Decoded.instr.inj h; exact ⟨encodeRegImm_fields hf ‹_›, fun _ => rfl⟩

/-- Decode answers an instruction or Unknown of the word itself (R64). -/
theorem decode_cases (p : JumpOffsetReg) (w : Word) : (∃ i, decode p w = .instr i) ∨ decode p w = .unknown w := by
  unfold decode
  split
  case h_1 =>
    unfold decode0
    split
    · exact .inl ⟨_, rfl⟩
    · split
      · exact .inl ⟨_, rfl⟩
      · split
        · exact .inl ⟨_, rfl⟩
        · exact .inr rfl
  case h_6 => unfold decodeLow0; split <;> simp
  case h_10 => unfold decodeLow0; split <;> simp
  case h_9 => unfold decode8; split <;> simp
  case h_12 => cases p <;> simp [decodeB]
  case h_15 => unfold decodeE; split <;> simp
  case h_16 => unfold decodeF; split <;> simp
  all_goals simp

theorem eq_of_decode_unknown {p : JumpOffsetReg} {w v : Word} (h : decode p w = .unknown v) : v = w := by
  rcases decode_cases p w with ⟨i, hi⟩ | hu
  · exact Decoded.noConfusion (h.symm.trans hi)
  · exact Decoded.unknown.inj (h.symm.trans hu)

/-! The fields of an encoded word are the operands it was made of. -/

section
variable (h : BitVec 4) (x y : RegIdx) (n : Count) (nn : Byte) (nnn : Addr12)

@[simp] theorem fieldFamily_encodeAddr : fieldFamily (encodeAddr h nnn) = h := by
  apply BitVec.eq_of_toNat_eq; rw [fieldFamily_toNat, encodeAddr_toNat]; omega

@[simp] theorem fieldNNN_encodeAddr : fieldNNN (encodeAddr h nnn) = nnn := by
  apply BitVec.eq_of_toNat_eq; rw [fieldNNN_toNat, encodeAddr_toNat]; omega

@[simp] theorem fieldFamily_encodeRegImm : fieldFamily (encodeRegImm h x nn) = h := by
  apply BitVec.eq_of_toNat_eq; rw [fieldFamily_toNat, encodeRegImm_toNat]; omega

@[simp] theorem fieldX_encodeRegImm : fieldX (encodeRegImm h x nn) = x := by
  apply Fin.ext; rw [fieldX_val, encodeRegImm_toNat]; omega

@[simp] theorem fieldNN_encodeRegImm : fieldNN (encodeRegImm h x nn) = nn := by
  apply BitVec.eq_of_toNat_eq; rw [fieldNN_toNat, encodeRegImm_toNat]; omega

@[simp] theorem fieldFamily_encodeRegRegN : fieldFamily (encodeRegRegN h x y n) = h := by
  apply BitVec.eq_of_toNat_eq; rw [fieldFamily_toNat, encodeRegRegN_toNat]; omega

@[simp] theorem fieldX_encodeRegRegN : fieldX (encodeRegRegN h x y n) = x := by
  apply Fin.ext; rw [fieldX_val, encodeRegRegN_toNat]; omega

@[simp] theorem fieldY_encodeRegRegN : fieldY (encodeRegRegN h x y n) = y := by
  apply Fin.ext; rw [fieldY_val, encodeRegRegN_toNat]; omega

@[simp] theorem fieldN_encodeRegRegN : fieldN (encodeRegRegN h x y n) = n := by
  apply Fin.ext; rw [fieldN_val, encodeRegRegN_toNat]; omega

end

/-- A word is its family and its three nibbles. -/
theorem word_toNat_split (w : Word) :
    w.toNat = w.toNat / 4096 * 4096 + w.toNat / 256 % 16 * 256 + w.toNat / 16 % 16 * 16 + w.toNat % 16 := by
  omega

/-- The two bytes of a word, read big-endian, are the word (R44). -/
@[simp] theorem wordOfBytes_split (w : Word) : wordOfBytes (w.extractLsb' 8 8) (w.extractLsb' 0 8) = w := by
  apply BitVec.eq_of_toNat_eq
  show @BitVec.toNat (8 + 8) _ = _
  rw [wordOfBytes, BitVec.toNat_append, ← Nat.shiftLeft_add_eq_or_of_lt (BitVec.isLt _)]
  simp [Nat.shiftLeft_eq, Nat.shiftRight_eq_div_pow]; omega

end Sys2Proof
end

