-- ==== Sys2Proof/Laws/Memory.lean ====
section
/-! SUPPORT. The laws of memory: what a read gives after a write, what the range accesses do, and that every operation keeps the
canonical form. -/

namespace Sys2Proof.Machine

/-! Read after erase, place and write: no premise on the memory. -/

theorem Memory.read_erase (m : Memory) (a x : Nat) :
    (m.erase a).read x = if x = a then background a else m.read x := by
  induction m with
  | nil => simp only [Memory.erase, Memory.read]; split <;> simp_all
  | cons c m ih =>
    simp only [Memory.erase, Memory.read]
    split
    · rw [ih]; split <;> simp_all; omega
    · simp only [Memory.read, ih]; split <;> split <;> simp_all

theorem Memory.read_place (m : Memory) (a x : Nat) (b : Byte) (h : ∀ c ∈ m, c.1 ≠ a) :
    (m.place a b).read x = if x = a then b else m.read x := by
  induction m with
  | nil => simp only [Memory.place, Memory.read, eq_comm]
  | cons c m ih =>
    simp only [List.mem_cons, forall_eq_or_imp] at h
    simp only [Memory.place]
    split
    · simp only [Memory.read, eq_comm]
    · simp only [Memory.read, ih h.2]; split <;> split <;> simp_all

theorem Memory.mem_erase {m : Memory} {a : Nat} {c : Host.Cell} : c ∈ m.erase a ↔ c ∈ m ∧ c.1 ≠ a := by
  induction m with
  | nil => simp [Memory.erase]
  | cons d m ih =>
    simp only [Memory.erase]
    split
    · simp only [ih, List.mem_cons]
      constructor
      · rintro ⟨h, h'⟩; exact ⟨.inr h, h'⟩
      · rintro ⟨rfl | h, h'⟩
        · exact absurd ‹_› h'
        · exact ⟨h, h'⟩
    · simp only [List.mem_cons, ih]
      constructor
      · rintro (rfl | h)
        · exact ⟨.inl rfl, ‹_›⟩
        · exact ⟨.inr h.1, h.2⟩
      · rintro ⟨rfl | h, h'⟩
        · exact .inl rfl
        · exact .inr ⟨h, h'⟩

/-- A read after a write: the byte written at that address, and what it was at every other (R49, R54). -/
theorem Memory.read_write (m : Memory) (a x : Nat) (b : Byte) :
    (m.write a b).read x = if x = a then b else m.read x := by
  unfold Memory.write
  split
  · rw [Memory.read_erase]; split <;> simp_all
  · rw [Memory.read_place _ _ _ _ (fun c hc => (Memory.mem_erase.mp hc).2), Memory.read_erase]
    split <;> simp_all

@[simp] theorem Memory.read_write_self (m : Memory) (a : Nat) (b : Byte) : (m.write a b).read a = b := by
  simp [Memory.read_write]

theorem Memory.read_write_of_ne (m : Memory) {a x : Nat} (b : Byte) (h : x ≠ a) : (m.write a b).read x = m.read x := by
  simp [Memory.read_write, h]

/-- A read after a list of bytes was written from `a` on. -/
theorem Memory.read_writeList (m : Memory) (a x : Nat) (bs : List Byte) :
    (m.writeList a bs).read x = if a ≤ x ∧ x < a + bs.length then bs.getD (x - a) 0 else m.read x := by
  induction bs generalizing m a with
  | nil => simp only [Memory.writeList, List.length_nil]; rw [if_neg]; omega
  | cons b bs ih =>
    simp only [Memory.writeList, ih, Memory.read_write, List.length_cons]
    by_cases h : x = a
    · subst h; rw [if_neg (by omega), if_pos rfl, if_pos (by omega)]; simp
    · by_cases h' : a + 1 ≤ x ∧ x < a + 1 + bs.length
      · rw [if_pos h', if_pos (by omega)]
        obtain ⟨k, rfl⟩ : ∃ k, x = a + 1 + k := ⟨x - (a + 1), by omega⟩
        rw [show a + 1 + k - (a + 1) = k by omega, show a + 1 + k - a = k + 1 by omega]; simp
      · rw [if_neg h', if_neg h, if_neg (by omega)]

/-! The canonical form. -/

theorem Memory.wf_nil : Memory.wf [] := ⟨List.Pairwise.nil, by simp⟩

theorem Memory.erase_sorted {m : Memory} (a : Nat) (h : m.Pairwise (fun c d => c.1 < d.1)) :
    (m.erase a).Pairwise (fun c d => c.1 < d.1) := by
  induction m with
  | nil => exact List.Pairwise.nil
  | cons c m ih =>
    rw [List.pairwise_cons] at h
    simp only [Memory.erase]
    split
    · exact ih h.2
    · exact List.pairwise_cons.mpr ⟨fun d hd => h.1 d (Memory.mem_erase.mp hd).1, ih h.2⟩

theorem Memory.mem_place {m : Memory} {a : Nat} {b : Byte} {c : Host.Cell} :
    c ∈ m.place a b ↔ c = (a, b) ∨ c ∈ m := by
  induction m with
  | nil => simp [Memory.place]
  | cons d m ih =>
    simp only [Memory.place]
    split
    · simp
    · simp only [List.mem_cons, ih, or_left_comm]

theorem Memory.place_sorted {m : Memory} (a : Nat) (b : Byte) (h : m.Pairwise (fun c d => c.1 < d.1))
    (hne : ∀ c ∈ m, c.1 ≠ a) : (m.place a b).Pairwise (fun c d => c.1 < d.1) := by
  induction m with
  | nil => simp [Memory.place]
  | cons c m ih =>
    rw [List.pairwise_cons] at h
    simp only [List.mem_cons, forall_eq_or_imp] at hne
    simp only [Memory.place]
    split
    · refine List.pairwise_cons.mpr ⟨fun d hd => ?_, List.pairwise_cons.mpr h⟩
      rcases List.mem_cons.mp hd with rfl | hd
      · assumption
      · exact Nat.lt_trans ‹_› (h.1 d hd)
    · refine List.pairwise_cons.mpr ⟨fun d hd => ?_, ih h.2 hne.2⟩
      rcases Memory.mem_place.mp hd with rfl | hd
      · show c.1 < a; have := hne.1; omega
      · exact h.1 d hd

/-- A write inside the address space keeps the canonical form. -/
theorem Memory.write_wf {m : Memory} {a : Nat} (b : Byte) (h : m.wf) (ha : a < 4096) : (m.write a b).wf := by
  have he : ∀ c ∈ m.erase a, c.1 < 4096 ∧ c.2 ≠ background c.1 := fun c hc => h.2 c (Memory.mem_erase.mp hc).1
  unfold Memory.write
  split
  · exact ⟨Memory.erase_sorted a h.1, he⟩
  · refine ⟨Memory.place_sorted a b (Memory.erase_sorted a h.1) fun c hc => (Memory.mem_erase.mp hc).2, fun c hc => ?_⟩
    rcases Memory.mem_place.mp hc with rfl | hc
    · exact ⟨ha, ‹_›⟩
    · exact he c hc

theorem Memory.writeList_wf {m : Memory} {a : Nat} (bs : List Byte) (h : m.wf) (ha : a + bs.length ≤ 4096) :
    (m.writeList a bs).wf := by
  induction bs generalizing m a with
  | nil => exact h
  | cons b bs ih =>
    simp only [List.length_cons] at ha
    exact ih (Memory.write_wf b h (by omega)) (by omega)

theorem Memory.writeInside_wf {m : Memory} {a : Nat} (b : Byte) (h : m.wf) : (m.writeInside a b).wf := by
  unfold Memory.writeInside
  split
  · exact h
  · exact Memory.write_wf b h (by omega)

/-- Two memories in canonical form that read alike are the same data. -/
theorem Memory.ext_of_wf {m n : Memory} (hm : m.wf) (hn : n.wf) (h : ∀ a, m.read a = n.read a) : m = n := by
  have key : ∀ {m : Memory}, m.wf → ∀ c : Host.Cell, c ∈ m ↔ c.2 = m.read c.1 ∧ c.2 ≠ background c.1 := by
    intro m hm c
    induction m with
    | nil => simp only [List.not_mem_nil, Memory.read, false_iff]; exact fun h => h.2 h.1
    | cons d m ih =>
      have hs := List.pairwise_cons.mp hm.1
      have ih := ih ⟨hs.2, fun c hc => hm.2 c (List.mem_cons_of_mem d hc)⟩
      simp only [List.mem_cons, Memory.read]
      by_cases hd : d.1 = c.1
      · rw [if_pos hd]
        constructor
        · rintro (rfl | hc)
          · exact ⟨rfl, (hm.2 c (List.mem_cons_self ..)).2⟩
          · exact absurd hd (Nat.ne_of_lt (hs.1 c hc))
        · rintro ⟨hc, -⟩; exact .inl (Prod.ext hd.symm hc)
      · rw [if_neg hd, ← ih]
        constructor
        · rintro (rfl | hc)
          · exact absurd rfl hd
          · exact hc
        · exact .inr
  have hp : m.Perm n := by
    refine (List.perm_ext_iff_of_nodup ?_ ?_).mpr fun c => by rw [key hm, key hn, h]
    · exact hm.1.imp fun hlt e => by rw [e] at hlt; exact Nat.lt_irrefl _ hlt
    · exact hn.1.imp fun hlt e => by rw [e] at hlt; exact Nat.lt_irrefl _ hlt
  exact hp.eq_of_pairwise (fun a b _ _ hab hba => absurd hab (Nat.lt_asymm hba)) hm.1 hn.1

/-! The bounds-checked accesses (R41, R42, R43). -/

theorem memRead_eq (m : Memory) (a : Nat) : memRead m a = if 4096 ≤ a then .error a else .ok (m.read a) := rfl

theorem memWrite_eq (m : Memory) (a : Nat) (b : Byte) :
    memWrite m a b = if 4096 ≤ a then .error a else .ok (m.write a b) := rfl

/-- A range read answers the bytes when every address exists, and else the lowest address that does not. -/
theorem memReadRange_eq (m : Memory) (base n : Nat) :
    memReadRange m base n =
      if n = 0 ∨ base + n ≤ 4096 then .ok ((List.range n).map fun k => m.read (base + k)) else .error (max base 4096) := by
  induction n generalizing base with
  | zero => simp [memReadRange]
  | succ n ih =>
    by_cases h : 4096 ≤ base
    · simp only [memReadRange, memRead_eq, if_pos h]
      rw [if_neg (by omega), Nat.max_eq_left h]
    · simp only [memReadRange, memRead_eq, if_neg h, ih]
      by_cases h' : base + (n + 1) ≤ 4096
      · rw [if_pos (.inr (by omega)), if_pos (.inr h')]
        simp only [List.range_succ_eq_map, List.map_cons, List.map_map, Function.comp_def, Nat.add_zero,
          show ∀ k, base + 1 + k = base + (k + 1) by omega, Nat.succ_eq_add_one]
      · rw [if_neg (by omega), if_neg (by omega)]
        simp only [Except.error.injEq]; omega

/-- A range write answers the memory with every byte written when every address exists, and else the lowest address that does
not. -/
theorem memWriteRange_eq (m : Memory) (base : Nat) (bs : List Byte) :
    memWriteRange m base bs =
      if bs.length = 0 ∨ base + bs.length ≤ 4096 then .ok (m.writeList base bs) else .error (max base 4096) := by
  induction bs generalizing m base with
  | nil => simp [memWriteRange, Memory.writeList]
  | cons b bs ih =>
    by_cases h : 4096 ≤ base
    · simp only [memWriteRange, memWrite_eq, if_pos h, List.length_cons]
      rw [if_neg (by omega), Nat.max_eq_left h]
    · simp only [memWriteRange, memWrite_eq, if_neg h, ih, List.length_cons, Memory.writeList]
      by_cases h' : base + (bs.length + 1) ≤ 4096
      · rw [if_pos (.inr (by omega)), if_pos (.inr h')]
      · rw [if_neg (by omega), if_neg (by omega)]
        simp only [Except.error.injEq]; omega

/-- A range write that answers keeps the canonical form. -/
theorem memWriteRange_wf {m m' : Memory} {base : Nat} {bs : List Byte} (h : m.wf)
    (hw : memWriteRange m base bs = .ok m') : m'.wf := by
  rw [memWriteRange_eq] at hw
  split at hw
  · cases hw
    rcases ‹_› with h0 | h1
    · rw [List.length_eq_zero_iff.mp h0]; exact h
    · exact Memory.writeList_wf bs h h1
  · cases hw

end Sys2Proof.Machine
end

