-- ==== Sys2Proof/Laws/Ops.lean ====
section
/-! SUPPORT. One lemma per shared operation that says everything it can do: registers, skips, stack, fetch, bulk registers,
framebuffer cells, keys. Proofs about instructions cite these and do not unfold the operations. -/

namespace Sys2Proof.Machine

/-! Registers. -/

theorem State.reg_setReg (s : State) (j x : RegIdx) (b : Byte) :
    (s.setReg x b).reg j = if j = x then b else s.reg j := by
  simp only [State.reg, State.setReg_v, Vector.getElem_set, Fin.ext_iff, eq_comm]

@[simp] theorem State.reg_setReg_self (s : State) (x : RegIdx) (b : Byte) : (s.setReg x b).reg x = b := by
  simp [State.reg_setReg]

theorem State.reg_setReg_of_ne (s : State) {j x : RegIdx} (b : Byte) (h : j ≠ x) : (s.setReg x b).reg j = s.reg j := by
  simp [State.reg_setReg, h]

/-! The observations that read one field see through every update of another field. -/

section
variable (s : State) (j : RegIdx) (k : Fin 16) (w : Word) (b : Byte) (m : Memory) (f : Framebuffer) (r : Vector Byte 16)

@[simp] theorem State.reg_setIndex : (s.setIndex w).reg j = s.reg j := rfl
@[simp] theorem State.reg_setPc : (s.setPc w).reg j = s.reg j := rfl
@[simp] theorem State.reg_setDt : (s.setDt b).reg j = s.reg j := rfl
@[simp] theorem State.reg_setSt : (s.setSt b).reg j = s.reg j := rfl
@[simp] theorem State.reg_setMem : (s.setMem m).reg j = s.reg j := rfl
@[simp] theorem State.reg_setFb : (s.setFb f).reg j = s.reg j := rfl
@[simp] theorem State.reg_countDraw : s.countDraw.reg j = s.reg j := rfl
@[simp] theorem State.reg_advancePc : s.advancePc.reg j = s.reg j := rfl
@[simp] theorem State.reg_rewindPc : s.rewindPc.reg j = s.reg j := rfl

/-- Every place agrees between states that hold the same fields. -/
theorem Loc.same_of_fields {s t : State} (l : Loc) (hv : t.v = s.v) (hi : t.index = s.index) (hp : t.pc = s.pc)
    (hst : t.stack = s.stack) (hsp : t.sp = s.sp) (hm : t.mem = s.mem) (hf : t.fb = s.fb) (hk : t.keys = s.keys)
    (hd : t.dt = s.dt) (hs : t.st = s.st) (hstat : t.status = s.status) (hc : t.config = s.config) (hdr : t.draws = s.draws) :
    l.same s t := by
  cases l <;>
    simp only [Loc.same, State.reg, State.slot, State.byteAt, State.cell, State.key, hv, hi, hp, hst, hsp, hm, hf, hk, hd,
      hs, hstat, hc, hdr]

end

/-- Every place agrees between a state and itself. -/
theorem Loc.same_refl (l : Loc) (s : State) : l.same s s :=
  l.same_of_fields rfl rfl rfl rfl rfl rfl rfl rfl rfl rfl rfl rfl rfl

theorem Loc.same_trans {l : Loc} {s t u : State} (h : l.same s t) (h' : l.same t u) : l.same s u := by
  cases l <;> exact Eq.trans h' h

/-- No write is a frame for every set of places. -/
theorem OnlyWrites.refl (s : State) (W : Loc → Prop) : OnlyWrites s s W := fun l _ => l.same_refl s

/-- Frames in sequence: what neither writes is unchanged. -/
theorem OnlyWrites.trans {s t u : State} {W : Loc → Prop} (h : OnlyWrites s t W) (h' : OnlyWrites t u W) :
    OnlyWrites s u W := fun l hl => Loc.same_trans (h l hl) (h' l hl)

theorem OnlyWrites.mono {s t : State} {W W' : Loc → Prop} (h : OnlyWrites s t W) (hs : ∀ l, W l → W' l) :
    OnlyWrites s t W' := fun l hl => h l fun hw => hl (hs l hw)

/-! The frame of each update. -/

section
variable (s : State) {W : Loc → Prop}

theorem onlyWrites_setReg (x : RegIdx) (b : Byte) (h : W (.reg x)) : OnlyWrites s (s.setReg x b) W := by
  intro l hl
  cases l with
  | reg j => exact State.reg_setReg_of_ne s b fun e => hl (e ▸ h)
  | _ => rfl

theorem onlyWrites_setIndex (w : Word) (h : W .index) : OnlyWrites s (s.setIndex w) W := by
  intro l hl
  cases l with
  | index => exact absurd h hl
  | _ => rfl

theorem onlyWrites_setPc (w : Word) (h : W .pc) : OnlyWrites s (s.setPc w) W := by
  intro l hl
  cases l with
  | pc => exact absurd h hl
  | _ => rfl

theorem onlyWrites_setDt (b : Byte) (h : W .dt) : OnlyWrites s (s.setDt b) W := by
  intro l hl
  cases l with
  | dt => exact absurd h hl
  | _ => rfl

theorem onlyWrites_setSt (b : Byte) (h : W .st) : OnlyWrites s (s.setSt b) W := by
  intro l hl
  cases l with
  | st => exact absurd h hl
  | _ => rfl

theorem onlyWrites_countDraw (h : W .draws) : OnlyWrites s s.countDraw W := by
  intro l hl
  cases l with
  | draws => exact absurd h hl
  | _ => rfl

theorem onlyWrites_setFb (f : Framebuffer) (h : ∀ x y, W (.cell x y)) : OnlyWrites s (s.setFb f) W := by
  intro l hl
  cases l with
  | cell x y => exact absurd (h x y) hl
  | _ => rfl

theorem onlyWrites_setMem (m : Memory) (h : ∀ a, m.read a = s.mem.read a ∨ W (.byte a)) :
    OnlyWrites s (s.setMem m) W := by
  intro l hl
  cases l with
  | byte a => exact (h a).resolve_right hl
  | _ => rfl

theorem onlyWrites_setRegs (r : Vector Byte 16) (h : ∀ j : RegIdx, r[j.val] = s.v[j.val] ∨ W (.reg j)) :
    OnlyWrites s (s.setRegs r) W := by
  intro l hl
  cases l with
  | reg j => exact (h j).resolve_right hl
  | _ => rfl

theorem onlyWrites_skipIf (c : Bool) (h : W .pc) : OnlyWrites s (s.skipIf c) W := by
  unfold State.skipIf; split
  · exact onlyWrites_setPc s _ h
  · exact OnlyWrites.refl s W

end

/-! Skips (R100). -/

theorem State.skipIf_pc (s : State) (c : Bool) : (s.skipIf c).pc = if c then s.pc + 2 else s.pc := by
  unfold State.skipIf; split <;> rfl

/-! The stack (R23 to R26). -/

/-- A push answers exactly when a slot is free; it fills `stack[sp]`, counts it, and changes nothing else. -/
theorem State.push_eq_some {s t : State} {w : Word} (h : s.push w = some t) :
    ∃ j : Fin 16, j.val = s.sp.val ∧ t.slot j = w ∧ t.sp.val = s.sp.val + 1 ∧
      OnlyWrites s t (fun l => l = .sp ∨ l = .slot j) := by
  unfold State.push at h
  split at h
  · obtain rfl := Option.some.inj h
    refine ⟨⟨s.sp.val, ‹_›⟩, rfl, by simp [State.slot], rfl, fun l hl => ?_⟩
    cases l with
    | sp => exact absurd (.inl rfl) hl
    | slot j =>
      have : s.sp.val ≠ j.val := fun e => hl (.inr (congrArg Loc.slot (Fin.ext e.symm)))
      simp [Loc.same, State.slot, this]
    | _ => rfl
  · cases h

theorem State.push_isSome {s : State} (w : Word) (h : s.sp.val < 16) : ∃ t, s.push w = some t := by
  simp [State.push, h]

theorem State.push_eq_none {s : State} (w : Word) (h : ¬ s.sp.val < 16) : s.push w = none := by
  simp [State.push, h]

/-- A pop answers exactly when a slot is occupied; it uncounts it, answers its value and changes nothing else (R26). -/
theorem State.pop_eq_some {s t : State} {w : Word} (h : s.pop = some (w, t)) :
    ∃ j : Fin 16, j.val + 1 = s.sp.val ∧ w = s.slot j ∧ t.sp.val = j.val ∧ OnlyWrites s t (fun l => l = .sp) := by
  unfold State.pop at h
  split at h
  · cases h
  · rename_i n hn heq
    simp only [Option.some.injEq, Prod.mk.injEq] at h
    obtain ⟨rfl, rfl⟩ := h
    refine ⟨⟨n, Nat.lt_of_succ_lt_succ hn⟩, by simp [heq], rfl, rfl, fun l hl => ?_⟩
    cases l with
    | sp => exact absurd rfl hl
    | _ => rfl

theorem State.pop_isSome {s : State} (h : s.sp.val ≠ 0) : ∃ w t, s.pop = some (w, t) := by
  unfold State.pop
  split
  · rename_i heq; exact absurd (by simp [heq]) h
  · exact ⟨_, _, rfl⟩

theorem State.pop_eq_none {s : State} (h : s.sp.val = 0) : s.pop = none := by
  unfold State.pop
  split
  · rfl
  · rename_i heq; rw [heq] at h; cases h

/-! Fetch (R44, R45). -/

/-- Fetch answers the two bytes at pc, big-endian, and else the first address that cannot be read. -/
theorem fetch_eq (s : State) :
    fetch s = if s.pc.toNat + 1 < 4096 then .ok (wordOfBytes (s.byteAt s.pc.toNat) (s.byteAt (s.pc.toNat + 1)))
      else .error (max s.pc.toNat 4096) := by
  by_cases h : 4096 ≤ s.pc.toNat
  · simp only [fetch, memRead_eq, if_pos h]; rw [if_neg (by omega), Nat.max_eq_left h]
  · by_cases h' : 4096 ≤ s.pc.toNat + 1
    · simp only [fetch, memRead_eq, if_neg h, if_pos h']; rw [if_neg (by omega)]; congr 1; omega
    · simp only [fetch, memRead_eq, if_neg h, if_neg h']; rw [if_pos (by omega)]; rfl

/-! Bulk registers (R166, R167). -/

theorem getElem_setRegRange (v : Vector Byte 16) (j i : Nat) (bs : List Byte) (hi : i < 16) :
    (setRegRange v j bs)[i] = if j ≤ i ∧ i < j + bs.length then bs.getD (i - j) 0 else v[i] := by
  induction bs generalizing v j with
  | nil => simp only [setRegRange, List.length_nil]; rw [if_neg]; omega
  | cons b bs ih =>
    simp only [setRegRange, ih, Vector.getElem_setIfInBounds, List.length_cons]
    by_cases h : j = i
    · subst h; rw [if_neg (by omega), if_pos rfl, if_pos (by omega)]; simp
    · by_cases h' : j + 1 ≤ i ∧ i < j + 1 + bs.length
      · rw [if_pos h', if_pos (by omega)]
        obtain ⟨k, rfl⟩ : ∃ k, i = j + 1 + k := ⟨i - (j + 1), by omega⟩
        rw [show j + 1 + k - (j + 1) = k by omega, show j + 1 + k - j = k + 1 by omega]; simp
      · rw [if_neg h', if_neg h, if_neg (by omega)]

@[simp] theorem State.regsUpTo_length (s : State) (x : RegIdx) : (s.regsUpTo x).length = x.val + 1 := by
  have := x.isLt
  rw [State.regsUpTo, List.length_take, Vector.length_toList]; omega

theorem State.regsUpTo_getD (s : State) (x : RegIdx) (k : Nat) (h : k ≤ x.val) :
    (s.regsUpTo x).getD k 0 = s.reg ⟨k, by omega⟩ := by
  have hk : k < 16 := by omega
  have : k < x.val + 1 := by omega
  simp [State.regsUpTo, State.reg, List.getD_eq_getElem?_getD, this, hk]

/-! The framebuffer. -/

@[simp] theorem Framebuffer.cell_blank (px : Fin 64) (py : Fin 32) : Framebuffer.blank.cell px py = false := by
  simp [Framebuffer.cell, Framebuffer.blank]

theorem Framebuffer.cell_setCell (fb : Framebuffer) (x px : Fin 64) (y py : Fin 32) (b : Bool) :
    (fb.setCell x y b).cell px py = if px = x ∧ py = y then b else fb.cell px py := by
  simp only [Framebuffer.cell, Framebuffer.setCell, Fin.ext_iff]
  by_cases hy : y.val = py.val
  · by_cases hx : x.val = px.val
    · simp [hx, hy]
    · have : ¬ px.val = x.val := fun h => hx h.symm
      simp [hx, hy, this]
  · have : ¬ py.val = y.val := fun h => hy h.symm
    simp [hy, this]

theorem flatten_rows_getElem? (rows : List (Vector Bool 64)) (y x : Nat) (hy : y < rows.length) (hx : x < 64) :
    (rows.map Vector.toList).flatten[y * 64 + x]? = some (rows[y])[x] := by
  induction rows generalizing y with
  | nil => simp at hy
  | cons r rows ih =>
    simp only [List.map_cons, List.flatten_cons]
    cases y with
    | zero => rw [List.getElem?_append_left (by simpa using hx)]; simp [hx]
    | succ y =>
      rw [List.getElem?_append_right (by simp; omega), Vector.length_toList,
        show (y + 1) * 64 + x - 64 = y * 64 + x by omega]
      simpa using ih y (by simpa using hy)

/-- The row-major order of the framebuffer: element `y * 64 + x` is the cell (x, y) (R200). -/
theorem Framebuffer.cells_getElem? (fb : Framebuffer) (px : Fin 64) (py : Fin 32) :
    fb.cells[py.val * 64 + px.val]? = some (fb.cell px py) := by
  rw [Framebuffer.cells, flatten_rows_getElem? _ _ _ (by simp) px.isLt]; simp [Framebuffer.cell]

theorem flatten_rows_length (rows : List (Vector Bool 64)) : (rows.map Vector.toList).flatten.length = rows.length * 64 := by
  induction rows with
  | nil => rfl
  | cons r rows ih => simp only [List.map_cons, List.flatten_cons, List.length_append, ih, Vector.length_toList,
      List.length_cons]; omega

@[simp] theorem Framebuffer.cells_length (fb : Framebuffer) : fb.cells.length = 2048 := by
  rw [Framebuffer.cells, flatten_rows_length]; simp

/-! Keys (R161). -/

theorem firstPressedFrom_eq_none (k : Nat) (bs : List Bool) : firstPressedFrom k bs = none ↔ ∀ b ∈ bs, b = false := by
  induction bs generalizing k with
  | nil => simp [firstPressedFrom]
  | cons b bs ih => cases b <;> simp [firstPressedFrom, ih]

theorem firstPressedFrom_eq_some (k r : Nat) (bs : List Bool) :
    firstPressedFrom k bs = some r ↔
      ∃ j, ∃ h : j < bs.length, r = k + j ∧ bs[j] = true ∧ ∀ i, ∀ _ : i < j, bs[i]'(by omega) = false := by
  induction bs generalizing k with
  | nil => simp [firstPressedFrom]
  | cons b bs ih =>
    cases b with
    | true =>
      simp only [firstPressedFrom, if_true, Option.some.injEq]
      constructor
      · rintro rfl; exact ⟨0, by simp, rfl, rfl, fun i hi => absurd hi (Nat.not_lt_zero i)⟩
      · rintro ⟨j, hj, rfl, -, hmin⟩
        cases j with
        | zero => rfl
        | succ j => exact absurd (hmin 0 (Nat.succ_pos j)) (by simp)
    | false =>
      simp only [firstPressedFrom, Bool.false_eq_true, if_false, ih]
      constructor
      · rintro ⟨j, hj, rfl, hb, hmin⟩
        refine ⟨j + 1, by simpa using hj, by omega, by simpa using hb, fun i hi => ?_⟩
        cases i with
        | zero => rfl
        | succ i => simpa using hmin i (by omega)
      · rintro ⟨j, hj, rfl, hb, hmin⟩
        cases j with
        | zero => simp at hb
        | succ j =>
          exact ⟨j, by simpa using hj, by omega, by simpa using hb, fun i hi => by simpa using hmin (i + 1) (by omega)⟩

/-- The scan finds a key exactly when it is pressed and no key below it is. -/
theorem State.firstPressed_eq_some (s : State) (k : Fin 16) :
    s.firstPressed = some k.val ↔ s.key k = true ∧ ∀ j, j < k → s.key j = false := by
  unfold State.firstPressed
  rw [firstPressedFrom_eq_some]
  constructor
  · rintro ⟨j, hj, he, hb, hmin⟩
    obtain rfl : j = k.val := by omega
    exact ⟨by simpa [State.key] using hb, fun i hi => by simpa [State.key] using hmin i.val hi⟩
  · rintro ⟨hk, hmin⟩
    refine ⟨k.val, by simp, by simp, by simpa [State.key] using hk, fun i hi => ?_⟩
    simpa [State.key] using hmin ⟨i, by omega⟩ hi

/-- The scan finds nothing exactly when no key is pressed. -/
theorem State.firstPressed_eq_none (s : State) : s.firstPressed = none ↔ ∀ k, s.key k = false := by
  unfold State.firstPressed
  rw [firstPressedFrom_eq_none]
  constructor
  · intro h k; exact h _ (by simp [State.key])
  · intro h b hb
    obtain ⟨i, hi, rfl⟩ := List.getElem_of_mem hb
    simpa [State.key] using h ⟨i, by simpa using hi⟩

/-- Whatever the scan finds is a key index. -/
theorem State.firstPressed_lt {s : State} {r : Nat} (h : s.firstPressed = some r) : r < 16 := by
  unfold State.firstPressed at h
  rw [firstPressedFrom_eq_some] at h
  obtain ⟨j, hj, rfl, -⟩ := h
  simpa using hj

end Sys2Proof.Machine
end

