-- ==== Sys2Proof/Laws/Draw.lean ====
section
/-! SUPPORT. What a sprite draw does to each cell and when it collides (44_display.md R141, R142): a draw is a sequence of toggles
of distinct cells, so that each covered cell is toggled once and every other keeps its value. -/

namespace Sys2Proof.Machine

/-- Toggle the cells of a list in order. -/
def Canvas.toggleAll (k : Canvas) (ps : List (Fin 64 × Fin 32)) : Canvas := ps.foldl (fun k p => k.toggle p.1 p.2) k

/-- The cells toggled by columns c, c + 1, .. (`n` of them) of sprite row r. -/
def rowPoints (x0 y0 r : Nat) (b : Byte) (c : Nat) : Nat → List (Fin 64 × Fin 32)
  | 0 => []
  | n + 1 =>
    if b.getLsbD (7 - c) then (Fin.ofNat 64 (x0 + c), Fin.ofNat 32 (y0 + r)) :: rowPoints x0 y0 r b (c + 1) n
    else rowPoints x0 y0 r b (c + 1) n

/-- The cells toggled by rows r, r + 1, .. of a sprite. -/
def spritePoints (x0 y0 r : Nat) : List Byte → List (Fin 64 × Fin 32)
  | [] => []
  | b :: bs => rowPoints x0 y0 r b 0 8 ++ spritePoints x0 y0 (r + 1) bs

theorem Canvas.drawBits_eq (k : Canvas) (x0 y0 r : Nat) (b : Byte) (c n : Nat) :
    k.drawBits x0 y0 r b c n = k.toggleAll (rowPoints x0 y0 r b c n) := by
  induction n generalizing k c with
  | zero => rfl
  | succ n ih => simp only [Canvas.drawBits, rowPoints]; split <;> simp [ih, Canvas.toggleAll]

theorem Canvas.drawRows_eq (k : Canvas) (x0 y0 r : Nat) (bs : List Byte) :
    k.drawRows x0 y0 r bs = k.toggleAll (spritePoints x0 y0 r bs) := by
  induction bs generalizing k r with
  | nil => rfl
  | cons b bs ih => simp [Canvas.drawRows, spritePoints, ih, Canvas.drawBits_eq, Canvas.toggleAll]

theorem Canvas.cell_toggle (k : Canvas) (x px : Fin 64) (y py : Fin 32) :
    (k.toggle x y).fb.cell px py = if px = x ∧ py = y then !k.fb.cell px py else k.fb.cell px py := by
  simp only [Canvas.toggle, Framebuffer.cell_setCell]
  split
  · rename_i h; rw [h.1, h.2]
  · rfl

/-- Toggling distinct cells: each listed cell is turned over, every other keeps its value, and there is a collision exactly if one
was there before or a listed cell was lit. -/
theorem Canvas.toggleAll_spec (k : Canvas) (ps : List (Fin 64 × Fin 32)) (hd : ps.Nodup) :
    (∀ px py, (k.toggleAll ps).fb.cell px py = if (px, py) ∈ ps then !k.fb.cell px py else k.fb.cell px py) ∧
    ((k.toggleAll ps).collided = true ↔ k.collided = true ∨ ∃ p ∈ ps, k.fb.cell p.1 p.2 = true) := by
  induction ps generalizing k with
  | nil => simp [Canvas.toggleAll]
  | cons p ps ih =>
    rw [List.nodup_cons] at hd
    obtain ⟨hcell, hcol⟩ := ih (k.toggle p.1 p.2) hd.2
    have hfold : k.toggleAll (p :: ps) = (k.toggle p.1 p.2).toggleAll ps := rfl
    rw [hfold]
    constructor
    · intro px py
      rw [hcell, Canvas.cell_toggle]
      by_cases hp : (px, py) = p
      · subst hp; simp [hd.1]
      · have : ¬ (px = p.1 ∧ py = p.2) := fun h => hp (Prod.ext h.1 h.2)
        simp only [if_neg this, List.mem_cons, hp, false_or]
    · have hlater : (∃ q ∈ ps, (k.toggle p.1 p.2).fb.cell q.1 q.2 = true) ↔ ∃ q ∈ ps, k.fb.cell q.1 q.2 = true := by
        refine exists_congr fun q => and_congr_right fun hq => ?_
        have : ¬ (q.1 = p.1 ∧ q.2 = p.2) := fun h => hd.1 (Prod.ext h.1 h.2 ▸ hq)
        rw [Canvas.cell_toggle, if_neg this]
      rw [hcol, hlater]
      simp [Canvas.toggle, or_assoc]

theorem mem_rowPoints (x0 y0 r : Nat) (b : Byte) (c n : Nat) (p : Fin 64 × Fin 32) :
    p ∈ rowPoints x0 y0 r b c n ↔
      ∃ c', c ≤ c' ∧ c' < c + n ∧ b.getLsbD (7 - c') = true ∧ p.1.val = (x0 + c') % 64 ∧ p.2.val = (y0 + r) % 32 := by
  induction n generalizing c with
  | zero => simp only [rowPoints, List.not_mem_nil, false_iff]; rintro ⟨c', h, h', -⟩; omega
  | succ n ih =>
    have hrest : p ∈ rowPoints x0 y0 r b (c + 1) n ↔
        ∃ c', c < c' ∧ c' < c + (n + 1) ∧ b.getLsbD (7 - c') = true ∧ p.1.val = (x0 + c') % 64 ∧
          p.2.val = (y0 + r) % 32 := by
      rw [ih]
      exact exists_congr fun c' => by rw [show c + 1 + n = c + (n + 1) by omega]; exact Iff.rfl
    by_cases hb : b.getLsbD (7 - c) = true
    · simp only [rowPoints, if_pos hb, List.mem_cons, hrest]
      constructor
      · rintro (rfl | ⟨c', h1, h2, h3⟩)
        · exact ⟨c, Nat.le_refl c, by omega, hb, rfl, rfl⟩
        · exact ⟨c', by omega, h2, h3⟩
      · rintro ⟨c', h1, h2, h3, h4, h5⟩
        by_cases hc : c' = c
        · subst hc; exact .inl (Prod.ext (Fin.ext h4) (Fin.ext h5))
        · exact .inr ⟨c', by omega, h2, h3, h4, h5⟩
    · simp only [rowPoints, if_neg hb, hrest]
      constructor
      · rintro ⟨c', h1, h2, h3⟩; exact ⟨c', by omega, h2, h3⟩
      · rintro ⟨c', h1, h2, h3, h4⟩
        by_cases hc : c' = c
        · subst hc; exact absurd h3 hb
        · exact ⟨c', by omega, h2, h3, h4⟩

theorem mem_spritePoints (x0 y0 r : Nat) (bs : List Byte) (p : Fin 64 × Fin 32) :
    p ∈ spritePoints x0 y0 r bs ↔
      ∃ j c, j < bs.length ∧ c < 8 ∧ p.1.val = (x0 + c) % 64 ∧ p.2.val = (y0 + (r + j)) % 32 ∧
        (bs.getD j 0).getLsbD (7 - c) = true := by
  induction bs generalizing r with
  | nil => simp [spritePoints]
  | cons b bs ih =>
    simp only [spritePoints, List.mem_append, mem_rowPoints, ih, List.length_cons]
    constructor
    · rintro (⟨c, -, h2, h3, h4, h5⟩ | ⟨j, c, h1, h2, h3, h4, h5⟩)
      · exact ⟨0, c, by omega, by omega, h4, h5, by simpa using h3⟩
      · exact ⟨j + 1, c, by omega, h2, h3, by rw [h4, show r + 1 + j = r + (j + 1) by omega], by simpa using h5⟩
    · rintro ⟨j, c, h1, h2, h3, h4, h5⟩
      cases j with
      | zero => exact .inl ⟨c, by omega, by omega, by simpa using h5, h3, h4⟩
      | succ j =>
        exact .inr ⟨j, c, by omega, h2, h3, by rw [h4, show r + (j + 1) = r + 1 + j by omega], by simpa using h5⟩

theorem rowPoints_nodup (x0 y0 r : Nat) (b : Byte) (c n : Nat) (h : n ≤ 64) : (rowPoints x0 y0 r b c n).Nodup := by
  induction n generalizing c with
  | zero => exact List.nodup_nil
  | succ n ih =>
    simp only [rowPoints]
    split
    · refine List.nodup_cons.mpr ⟨fun hm => ?_, ih (c + 1) (by omega)⟩
      obtain ⟨c', h1, h2, -, h4, -⟩ := (mem_rowPoints ..).mp hm
      simp only [Fin.val_ofNat] at h4; omega
    · exact ih (c + 1) (by omega)

theorem spritePoints_nodup (x0 y0 r : Nat) (bs : List Byte) (h : bs.length ≤ 32) : (spritePoints x0 y0 r bs).Nodup := by
  induction bs generalizing r with
  | nil => exact List.nodup_nil
  | cons b bs ih =>
    simp only [List.length_cons] at h
    refine List.nodup_append.mpr ⟨rowPoints_nodup x0 y0 r b 0 8 (by omega), ih (r + 1) (by omega), ?_⟩
    rintro p hp q hq rfl
    obtain ⟨-, -, -, -, -, h5⟩ := (mem_rowPoints ..).mp hp
    obtain ⟨j, -, h1, -, -, h4, -⟩ := (mem_spritePoints ..).mp hq
    omega

/-- A sprite of at most 32 rows: a cell under a 1 bit is turned over, every other keeps its value, and there is a collision
exactly if a cell under a 1 bit was lit. -/
theorem State.drawSprite_spec (s : State) (x0 y0 : Byte) (rows : List Byte) (h : rows.length ≤ 32) :
    (∀ px py, (s.drawSprite x0 y0 rows).fb.cell px py =
      if (px, py) ∈ spritePoints x0.toNat y0.toNat 0 rows then !s.cell px py else s.cell px py) ∧
    ((s.drawSprite x0 y0 rows).collided = true ↔
      ∃ p ∈ spritePoints x0.toNat y0.toNat 0 rows, s.cell p.1 p.2 = true) := by
  have := Canvas.toggleAll_spec ⟨s.fb, false⟩ _ (spritePoints_nodup x0.toNat y0.toNat 0 rows h)
  simpa [State.drawSprite, Canvas.drawRows_eq, State.cell] using this

/-- The cells that a sprite read from I covers are those of the draw. -/
theorem mem_spritePoints_iff_spriteCovers (s : State) (x0 y0 : Byte) (n : Nat) (px : Fin 64) (py : Fin 32) :
    (px, py) ∈ spritePoints x0.toNat y0.toNat 0 ((List.range n).map fun k => s.mem.read (s.dataBase + k)) ↔
      SpriteCovers s x0 y0 n px py := by
  rw [mem_spritePoints]
  simp only [SpriteCovers, List.length_map, List.length_range, Nat.zero_add, spriteBit, State.byteAt]
  refine exists_congr fun j => exists_congr fun c => and_congr_right fun hj => ?_
  simp [List.getD_eq_getElem?_getD, hj]

end Sys2Proof.Machine
end

