-- ==== Sys2Proof/Laws/PerInstr.lean ====
section
/-! SUPPORT. Statements about every instruction, made per instruction: the family RoundTrip says that a well-formed instruction's
word decodes to it. -/

namespace Sys2Proof.Laws.RoundTrip

/-- Under every value of JUMP_OFFSET_REG in which the instruction exists, its word decodes to it. -/
def Statement (i : Instr) : Prop := ∀ p, i.wf p = true → decode p (encode i) = .instr i

theorem nop : Statement (.nop) := by
  intro p _; cases p <;> decide

theorem cls : Statement (.cls) := by
  intro p _; cases p <;> decide

theorem ret : Statement (.ret) := by
  intro p _; cases p <;> decide

theorem jp (nnn : Addr12) : Statement (.jp nnn) := by
  intro p _; simp only [encode, decode, fieldFamily_encodeAddr, fieldNNN_encodeAddr]; rfl

theorem call (nnn : Addr12) : Statement (.call nnn) := by
  intro p _; simp only [encode, decode, fieldFamily_encodeAddr, fieldNNN_encodeAddr]; rfl

theorem seVxNn (x : RegIdx) (nn : Byte) : Statement (.seVxNn x nn) := by
  intro p _; simp only [encode, decode, fieldFamily_encodeRegImm, fieldX_encodeRegImm, fieldNN_encodeRegImm]; rfl

theorem sneVxNn (x : RegIdx) (nn : Byte) : Statement (.sneVxNn x nn) := by
  intro p _; simp only [encode, decode, fieldFamily_encodeRegImm, fieldX_encodeRegImm, fieldNN_encodeRegImm]; rfl

theorem seVxVy (x y : RegIdx) : Statement (.seVxVy x y) := by
  intro p _; simp only [encode, decode, decodeLow0, fieldFamily_encodeRegRegN, fieldX_encodeRegRegN, fieldY_encodeRegRegN, fieldN_encodeRegRegN]; rfl

theorem ldVxNn (x : RegIdx) (nn : Byte) : Statement (.ldVxNn x nn) := by
  intro p _; simp only [encode, decode, fieldFamily_encodeRegImm, fieldX_encodeRegImm, fieldNN_encodeRegImm]; rfl

theorem addVxNn (x : RegIdx) (nn : Byte) : Statement (.addVxNn x nn) := by
  intro p _; simp only [encode, decode, fieldFamily_encodeRegImm, fieldX_encodeRegImm, fieldNN_encodeRegImm]; rfl

theorem ldVxVy (x y : RegIdx) : Statement (.ldVxVy x y) := by
  intro p _; simp only [encode, decode, decode8, fieldFamily_encodeRegRegN, fieldX_encodeRegRegN, fieldY_encodeRegRegN, fieldN_encodeRegRegN]; rfl

theorem orVxVy (x y : RegIdx) : Statement (.orVxVy x y) := by
  intro p _; simp only [encode, decode, decode8, fieldFamily_encodeRegRegN, fieldX_encodeRegRegN, fieldY_encodeRegRegN, fieldN_encodeRegRegN]; rfl

theorem andVxVy (x y : RegIdx) : Statement (.andVxVy x y) := by
  intro p _; simp only [encode, decode, decode8, fieldFamily_encodeRegRegN, fieldX_encodeRegRegN, fieldY_encodeRegRegN, fieldN_encodeRegRegN]; rfl

theorem xorVxVy (x y : RegIdx) : Statement (.xorVxVy x y) := by
  intro p _; simp only [encode, decode, decode8, fieldFamily_encodeRegRegN, fieldX_encodeRegRegN, fieldY_encodeRegRegN, fieldN_encodeRegRegN]; rfl

theorem addVxVy (x y : RegIdx) : Statement (.addVxVy x y) := by
  intro p _; simp only [encode, decode, decode8, fieldFamily_encodeRegRegN, fieldX_encodeRegRegN, fieldY_encodeRegRegN, fieldN_encodeRegRegN]; rfl

theorem subVxVy (x y : RegIdx) : Statement (.subVxVy x y) := by
  intro p _; simp only [encode, decode, decode8, fieldFamily_encodeRegRegN, fieldX_encodeRegRegN, fieldY_encodeRegRegN, fieldN_encodeRegRegN]; rfl

theorem shrVxVy (x y : RegIdx) : Statement (.shrVxVy x y) := by
  intro p _; simp only [encode, decode, decode8, fieldFamily_encodeRegRegN, fieldX_encodeRegRegN, fieldY_encodeRegRegN, fieldN_encodeRegRegN]; rfl

theorem subnVxVy (x y : RegIdx) : Statement (.subnVxVy x y) := by
  intro p _; simp only [encode, decode, decode8, fieldFamily_encodeRegRegN, fieldX_encodeRegRegN, fieldY_encodeRegRegN, fieldN_encodeRegRegN]; rfl

theorem shlVxVy (x y : RegIdx) : Statement (.shlVxVy x y) := by
  intro p _; simp only [encode, decode, decode8, fieldFamily_encodeRegRegN, fieldX_encodeRegRegN, fieldY_encodeRegRegN, fieldN_encodeRegRegN]; rfl

theorem sneVxVy (x y : RegIdx) : Statement (.sneVxVy x y) := by
  intro p _; simp only [encode, decode, decodeLow0, fieldFamily_encodeRegRegN, fieldX_encodeRegRegN, fieldY_encodeRegRegN, fieldN_encodeRegRegN]; rfl

theorem ldINnn (nnn : Addr12) : Statement (.ldINnn nnn) := by
  intro p _; simp only [encode, decode, fieldFamily_encodeAddr, fieldNNN_encodeAddr]; rfl

theorem jpV0Nnn (nnn : Addr12) : Statement (.jpV0Nnn nnn) := by
  intro p h; cases p <;> simp_all [decode, decodeB, encode, Instr.wf]

theorem rndVxNn (x : RegIdx) (nn : Byte) : Statement (.rndVxNn x nn) := by
  intro p _; simp only [encode, decode, fieldFamily_encodeRegImm, fieldX_encodeRegImm, fieldNN_encodeRegImm]; rfl

theorem drwVxVyN (x y : RegIdx) (n : Count) : Statement (.drwVxVyN x y n) := by
  intro p _; simp only [encode, decode, fieldFamily_encodeRegRegN, fieldX_encodeRegRegN, fieldY_encodeRegRegN, fieldN_encodeRegRegN]; rfl

theorem skpVx (x : RegIdx) : Statement (.skpVx x) := by
  intro p _; simp only [encode, decode, decodeE, fieldFamily_encodeRegImm, fieldX_encodeRegImm, fieldNN_encodeRegImm]; rfl

theorem sknpVx (x : RegIdx) : Statement (.sknpVx x) := by
  intro p _; simp only [encode, decode, decodeE, fieldFamily_encodeRegImm, fieldX_encodeRegImm, fieldNN_encodeRegImm]; rfl

theorem ldVxDt (x : RegIdx) : Statement (.ldVxDt x) := by
  intro p _; simp only [encode, decode, decodeF, fieldFamily_encodeRegImm, fieldX_encodeRegImm, fieldNN_encodeRegImm]; rfl

theorem ldVxK (x : RegIdx) : Statement (.ldVxK x) := by
  intro p _; simp only [encode, decode, decodeF, fieldFamily_encodeRegImm, fieldX_encodeRegImm, fieldNN_encodeRegImm]; rfl

theorem ldDtVx (x : RegIdx) : Statement (.ldDtVx x) := by
  intro p _; simp only [encode, decode, decodeF, fieldFamily_encodeRegImm, fieldX_encodeRegImm, fieldNN_encodeRegImm]; rfl

theorem ldStVx (x : RegIdx) : Statement (.ldStVx x) := by
  intro p _; simp only [encode, decode, decodeF, fieldFamily_encodeRegImm, fieldX_encodeRegImm, fieldNN_encodeRegImm]; rfl

theorem addIVx (x : RegIdx) : Statement (.addIVx x) := by
  intro p _; simp only [encode, decode, decodeF, fieldFamily_encodeRegImm, fieldX_encodeRegImm, fieldNN_encodeRegImm]; rfl

theorem ldFVx (x : RegIdx) : Statement (.ldFVx x) := by
  intro p _; simp only [encode, decode, decodeF, fieldFamily_encodeRegImm, fieldX_encodeRegImm, fieldNN_encodeRegImm]; rfl

theorem ldBVx (x : RegIdx) : Statement (.ldBVx x) := by
  intro p _; simp only [encode, decode, decodeF, fieldFamily_encodeRegImm, fieldX_encodeRegImm, fieldNN_encodeRegImm]; rfl

theorem ldMemVx (x : RegIdx) : Statement (.ldMemVx x) := by
  intro p _; simp only [encode, decode, decodeF, fieldFamily_encodeRegImm, fieldX_encodeRegImm, fieldNN_encodeRegImm]; rfl

theorem ldVxMem (x : RegIdx) : Statement (.ldVxMem x) := by
  intro p _; simp only [encode, decode, decodeF, fieldFamily_encodeRegImm, fieldX_encodeRegImm, fieldNN_encodeRegImm]; rfl

end Sys2Proof.Laws.RoundTrip
end

