-- ==== Sys2Proof/Tests/Slice0.lean ====
section
/-! SUPPORT. Small tests of the model, each with an expected value from spec/ (95_test_vectors.md by its vector names, or the
encoding tables of 30_encoding.md), and for every statement with hypotheses a witness that meets them, at boundary values. -/

set_option maxRecDepth 20000

namespace Sys2Proof.Tests

open Sys2Proof Sys2Proof.Machine

/-! Helpers. -/

/-- The machine after reset, with these registers set. -/
def regs (l : List (RegIdx × Byte)) : State := l.foldl (fun s p => s.setReg p.1 p.2) State.reset

/-- With these bytes of memory from an address on. -/
def bytesAt (a : Nat) (bs : List Byte) (s : State) : State := s.setMem (s.mem.writeList a bs)

/-- With other parameters. -/
def under (c : Config) (s : State) : State := { s with config := c }

/-- With a key pressed. -/
def press (k : Fin 16) (s : State) : State := s.setKey k true

/-- With every framebuffer cell lit. -/
def allLit (s : State) : State := s.setFb (Vector.replicate 32 (Vector.replicate 64 true))

/-- With `n` occupied stack slots, each holding `w`. -/
def stacked (n : Fin 17) (w : Word) (s : State) : State := s.withStack (Vector.replicate 16 w) n

/-- One step on a word placed at pc. -/
def runs (w : Nat) (s : State) : Result := step (s.withFetchWord 16 w)

/-- A view of the next state. -/
def sees {α : Type} (r : Result) (f : State → α) : Option α :=
  match r with
  | .next t => some (f t)
  | .fault _ => none
  | .refused _ => none

/-- The fault, if there is one. -/
def faults (r : Result) : Option Fault :=
  match r with
  | .next _ => none
  | .fault f => some f
  | .refused _ => none

/-- The places of the true elements of a list, counted from `k`. -/
def litFrom (k : Nat) : List Bool → List Nat
  | [] => []
  | true :: bs => k :: litFrom (k + 1) bs
  | false :: bs => litFrom (k + 1) bs

/-- The lit cells, each as `y * 64 + x`. -/
def litCells (s : State) : List Nat := litFrom 0 s.fb.cells

/-! WellFormed (30_encoding.md R64): the one check, on a term that it refuses. -/

theorem test_wf_refuses_jp_v0_when_absent : Instr.wf .absent (.jpV0Nnn 0x300) = false := by decide
theorem test_wf_admits_jp_v0 : Instr.wf .v0 (.jpV0Nnn 0x300) = true ∧ Instr.wf .vx (.jpV0Nnn 0x300) = true := by decide

/-! Decode: one word per form, written out from 30_encoding.md R61 to R67. -/

theorem test_decode_control :
    decode .v0 0b0000_0000_0000_0000#16 = .instr .nop ∧ decode .v0 0b0000_0000_1110_0000#16 = .instr .cls ∧
    decode .v0 0b0000_0000_1110_1110#16 = .instr .ret ∧ decode .v0 0b0001_0010_0011_0100#16 = .instr (.jp 0x234) ∧
    decode .v0 0b0010_1010_1011_1100#16 = .instr (.call 0xABC) ∧
    decode .v0 0b1011_0011_0000_0001#16 = .instr (.jpV0Nnn 0x301) := by decide
theorem test_decode_skips :
    decode .v0 0b0011_0011_0100_0010#16 = .instr (.seVxNn 3 0x42) ∧
    decode .v0 0b0100_1010_0000_0001#16 = .instr (.sneVxNn 0xA 1) ∧
    decode .v0 0b0101_0001_0010_0000#16 = .instr (.seVxVy 1 2) ∧
    decode .v0 0b1001_0001_0010_0000#16 = .instr (.sneVxVy 1 2) := by decide
theorem test_decode_immediate :
    decode .v0 0b0110_1111_0001_0010#16 = .instr (.ldVxNn 0xF 0x12) ∧
    decode .v0 0b0111_0001_1111_1111#16 = .instr (.addVxNn 1 0xFF) := by decide
theorem test_decode_alu :
    decode .v0 0b1000_1111_0001_0000#16 = .instr (.ldVxVy 0xF 1) ∧ decode .v0 0b1000_0001_0010_0001#16 = .instr (.orVxVy 1 2) ∧
    decode .v0 0b1000_0001_0010_0010#16 = .instr (.andVxVy 1 2) ∧ decode .v0 0b1000_0001_0010_0011#16 = .instr (.xorVxVy 1 2) ∧
    decode .v0 0b1000_0001_0010_0100#16 = .instr (.addVxVy 1 2) ∧ decode .v0 0b1000_0001_0010_0101#16 = .instr (.subVxVy 1 2) ∧
    decode .v0 0b1000_0001_0010_0110#16 = .instr (.shrVxVy 1 2) ∧ decode .v0 0b1000_0001_0010_0111#16 = .instr (.subnVxVy 1 2) ∧
    decode .v0 0b1000_0001_0010_1110#16 = .instr (.shlVxVy 1 2) := by decide
theorem test_decode_index_random_draw :
    decode .v0 0b1010_0010_0000_1010#16 = .instr (.ldINnn 0x20A) ∧
    decode .v0 0b1100_0001_0000_1111#16 = .instr (.rndVxNn 1 0x0F) ∧
    decode .v0 0b1101_1010_1011_0101#16 = .instr (.drwVxVyN 0xA 0xB 5) ∧
    decode .v0 0b1111_0010_0001_1110#16 = .instr (.addIVx 2) := by decide
theorem test_decode_keys :
    decode .v0 0b1110_0101_1001_1110#16 = .instr (.skpVx 5) ∧
    decode .v0 0b1110_0101_1010_0001#16 = .instr (.sknpVx 5) := by decide
theorem test_decode_f :
    decode .v0 0b1111_0011_0000_0111#16 = .instr (.ldVxDt 3) ∧ decode .v0 0b1111_0011_0000_1010#16 = .instr (.ldVxK 3) ∧
    decode .v0 0b1111_0001_0001_0101#16 = .instr (.ldDtVx 1) ∧ decode .v0 0b1111_0001_0001_1000#16 = .instr (.ldStVx 1) ∧
    decode .v0 0b1111_0010_0010_1001#16 = .instr (.ldFVx 2) ∧ decode .v0 0b1111_0001_0011_0011#16 = .instr (.ldBVx 1) ∧
    decode .v0 0b1111_0010_0101_0101#16 = .instr (.ldMemVx 2) ∧ decode .v0 0b1111_0010_0110_0101#16 = .instr (.ldVxMem 2) := by
  decide
/-- T-DEC-2 to T-DEC-6, T-PAR-11. -/
theorem test_decode_unknown :
    decode .v0 0x0123 = .unknown 0x0123 ∧ decode .v0 0x5121 = .unknown 0x5121 ∧ decode .v0 0x8128 = .unknown 0x8128 ∧
    decode .v0 0xE19F = .unknown 0xE19F ∧ decode .v0 0xF100 = .unknown 0xF100 ∧ decode .absent 0xB300 = .unknown 0xB300 := by
  decide
/-- The table numbers bit 0 from the least significant bit of the word; a row with fewer bits is padded with zeros above. -/
theorem test_decode_table_word :
    decodeTableWord 16 0x8124 = some (.addVxVy 1 2) ∧ decodeTableWord 16 0x8128 = none ∧ decodeTableWord 8 0xEE = some .ret := by
  decide

/-! Fetch and decode of a step. -/

/-- T-MEM-1, T-MEM-3, T-MEM-4. -/
theorem test_fetch :
    sees (step (bytesAt 0x200 [0x12, 0x34] State.reset)) (·.pc) = some 0x234 ∧
    faults (step (State.reset.setPc 0xFFF)) = some (.outOfBounds 0xFFF none 0x1000) ∧
    faults (step (State.reset.setPc 0x1000)) = some (.outOfBounds 0x1000 none 0x1000) := by decide
/-- T-MEM-5, the second of its steps: an odd pc is no fault. -/
theorem test_odd_pc :
    sees (step (bytesAt 0x203 [0x60, 0x07] (State.reset.setPc 0x203))) (fun t => (t.reg 0, t.pc)) = some (7, 0x205) := by decide
/-- T-DEC-2. -/
theorem test_unknown_faults : faults (runs 0x0123 State.reset) = some (.unknownInstruction 0x200 0x0123) := by decide

/-! One or two steps per instruction. -/

/-- T-DEC-1, T-MEM-2. -/
theorem test_nop : sees (runs 0x0000 State.reset) (·.pc) = some 0x202 ∧
    sees (runs 0x0000 (State.reset.setPc 0xFFE)) (·.pc) = some 0x1000 := by decide
/-- T-CTL-9. -/
theorem test_cls : sees (runs 0x00E0 (allLit (regs [(15, 0x55)]))) (fun t => (litCells t, t.reg 15, t.pc)) =
    some ([], 0x55, 0x202) := by decide
/-- T-CTL-2. -/
theorem test_ret : sees (runs 0x00EE (stacked 1 0x206 State.reset)) (fun t => (t.sp, t.pc, t.slot 0)) =
    some (0, 0x206, 0x206) := by decide
/-- T-CTL-1. -/
theorem test_ret_underflow : faults (runs 0x00EE State.reset) = some (.stackUnderflow 0x200 0x00EE) := by decide
/-- T-CTL-5. -/
theorem test_jp : sees (runs 0x1FFF State.reset) (·.pc) = some 0xFFF := by decide
/-- T-CTL-3. -/
theorem test_call : sees (runs 0x2ABC (State.reset.setPc 0xFFE)) (fun t => (t.slot 0, t.sp, t.pc)) =
    some (0x1000, 1, 0xABC) := by decide
/-- T-CTL-4. -/
theorem test_call_overflow : faults (runs 0x2300 (stacked 16 0 State.reset)) = some (.stackOverflow 0x200 0x2300) := by decide
/-- T-CTL-7, T-CTL-8. -/
theorem test_jp_v0 : sees (runs 0xB300 (regs [(0, 4)])) (·.pc) = some 0x304 ∧
    sees (runs 0xBFF0 (regs [(0, 0x20)])) (·.pc) = some 0x1010 := by decide
/-- T-PAR-10, T-PAR-11. -/
theorem test_jp_v0_parameter :
    sees (runs 0xB300 (under { defaultConfig with jumpOffsetReg := .vx } (regs [(0, 4), (3, 6)]))) (·.pc) = some 0x306 ∧
    faults (runs 0xB300 (under { defaultConfig with jumpOffsetReg := .absent } State.reset)) =
      some (.unknownInstruction 0x200 0xB300) := by decide
/-- T-SKP-1, T-SKP-2. -/
theorem test_se_imm : sees (runs 0x3342 (regs [(3, 0x42)])) (·.pc) = some 0x204 ∧
    sees (runs 0x3342 (regs [(3, 0x41)])) (·.pc) = some 0x202 := by decide
/-- T-SKP-12: a skip out of the last word of memory does not wrap at 4096. -/
theorem test_se_imm_end : sees (runs 0x3000 (State.reset.setPc 0xFFE)) (·.pc) = some 0x1002 := by decide
/-- T-SKP-3, T-SKP-4. -/
theorem test_sne_imm : sees (runs 0x4000 State.reset) (·.pc) = some 0x202 ∧
    sees (runs 0x4000 (regs [(0, 1)])) (·.pc) = some 0x204 := by decide
/-- T-SKP-5, T-SKP-6. -/
theorem test_se_reg : sees (runs 0x5120 (regs [(1, 7), (2, 7)])) (·.pc) = some 0x204 ∧
    sees (runs 0x5120 (regs [(1, 7), (2, 8)])) (·.pc) = some 0x202 := by decide
/-- T-SKP-8, T-SKP-9. -/
theorem test_sne_reg : sees (runs 0x9120 (regs [(1, 7), (2, 8)])) (·.pc) = some 0x204 ∧
    sees (runs 0x9110 (regs [(1, 7)])) (·.pc) = some 0x202 := by decide
/-- T-ALU-1. -/
theorem test_ld_imm : sees (runs 0x6F12 (regs [(15, 1)])) (·.reg 15) = some 0x12 := by decide
/-- T-ALU-3, T-ALU-4. -/
theorem test_add_imm : sees (runs 0x7101 (regs [(1, 0xFF), (15, 0x55)])) (fun t => (t.reg 1, t.reg 15)) = some (0, 0x55) ∧
    sees (runs 0x7F01 (regs [(15, 0xFF)])) (·.reg 15) = some 0 := by decide
/-- T-ALU-5. -/
theorem test_ld_reg : sees (runs 0x8F10 (regs [(1, 7), (15, 1)])) (·.reg 15) = some 7 := by decide
/-- T-ALU-6. -/
theorem test_or : sees (runs 0x8121 (regs [(1, 0x0F), (2, 0xF0), (15, 0x55)])) (fun t => (t.reg 1, t.reg 15)) =
    some (0xFF, 0x55) := by decide
/-- T-PAR-7. -/
theorem test_or_resets_flag : sees (runs 0x8121 (under { defaultConfig with logicResetsVF := true }
    (regs [(1, 1), (2, 2), (15, 0x55)]))) (fun t => (t.reg 1, t.reg 15)) = some (3, 0) := by decide
/-- T-ALU-7. -/
theorem test_and : sees (runs 0x8122 (regs [(1, 0x3C), (2, 0x0F), (15, 0x55)])) (fun t => (t.reg 1, t.reg 15)) =
    some (0x0C, 0x55) := by decide
/-- T-ALU-8, T-ALU-9. -/
theorem test_xor : sees (runs 0x8123 (regs [(1, 0xFF), (2, 0x0F), (15, 0x55)])) (fun t => (t.reg 1, t.reg 15)) =
    some (0xF0, 0x55) ∧ sees (runs 0x8113 (regs [(1, 0xAB)])) (·.reg 1) = some 0 := by decide
/-- T-ALU-10, T-ALU-12. -/
theorem test_add : sees (runs 0x8124 (regs [(1, 0xFF), (2, 1)])) (fun t => (t.reg 1, t.reg 15)) = some (0, 1) ∧
    sees (runs 0x8124 (regs [(1, 0x7F), (2, 1)])) (fun t => (t.reg 1, t.reg 15)) = some (0x80, 0) := by decide
/-- T-ALU-15, T-ALU-16: VF as destination and as source. -/
theorem test_add_flag_register : sees (runs 0x8F14 (regs [(15, 0xF0), (1, 0x20)])) (·.reg 15) = some 1 ∧
    sees (runs 0x81F4 (regs [(1, 0xFF), (15, 1)])) (fun t => (t.reg 1, t.reg 15)) = some (0, 1) := by decide
/-- T-ALU-18, T-ALU-19. -/
theorem test_sub : sees (runs 0x8125 (regs [(1, 3), (2, 5)])) (fun t => (t.reg 1, t.reg 15)) = some (0xFE, 0) ∧
    sees (runs 0x8125 (regs [(1, 7), (2, 7)])) (fun t => (t.reg 1, t.reg 15)) = some (0, 1) := by decide
/-- T-PAR-1, T-PAR-3. -/
theorem test_sub_borrow :
    sees (runs 0x8125 (under { defaultConfig with subPolarity := .borrow } (regs [(1, 5), (2, 3)])))
      (fun t => (t.reg 1, t.reg 15)) = some (2, 0) ∧
    sees (runs 0x8125 (under { defaultConfig with subPolarity := .borrow } (regs [(1, 7), (2, 7)])))
      (fun t => (t.reg 1, t.reg 15)) = some (0, 0) := by decide
/-- T-ALU-23, T-ALU-24. -/
theorem test_subn : sees (runs 0x8127 (regs [(1, 3), (2, 5)])) (fun t => (t.reg 1, t.reg 15)) = some (2, 1) ∧
    sees (runs 0x8127 (regs [(1, 5), (2, 3)])) (fun t => (t.reg 1, t.reg 15)) = some (0xFE, 0) := by decide
/-- T-ALU-26, T-ALU-30. -/
theorem test_shr : sees (runs 0x8106 (regs [(1, 5)])) (fun t => (t.reg 1, t.reg 15)) = some (2, 1) ∧
    sees (runs 0x8F06 (regs [(15, 3)])) (·.reg 15) = some 1 := by decide
/-- T-PAR-5. -/
theorem test_shr_vy : sees (runs 0x8126 (under { defaultConfig with shiftSource := .vy } (regs [(2, 5)])))
    (fun t => (t.reg 1, t.reg 15, t.reg 2)) = some (2, 1, 5) := by decide
/-- T-ALU-31, T-ALU-35. -/
theorem test_shl : sees (runs 0x810E (regs [(1, 0x81)])) (fun t => (t.reg 1, t.reg 15)) = some (2, 1) ∧
    sees (runs 0x8F0E (regs [(15, 0x40)])) (·.reg 15) = some 0 := by decide
/-- T-PAR-6. -/
theorem test_shl_vy : sees (runs 0x812E (under { defaultConfig with shiftSource := .vy } (regs [(2, 0x81)])))
    (fun t => (t.reg 1, t.reg 15)) = some (2, 1) := by decide
/-- T-IDX-1. -/
theorem test_ld_i : sees (runs 0xAFFF State.reset) (·.index) = some 0x0FFF := by decide
/-- T-IDX-3, T-IDX-4. -/
theorem test_add_i : sees (runs 0xF11E ((regs [(1, 1), (15, 0x55)]).setIndex 0xFFFF)) (fun t => (t.index, t.reg 15)) =
    some (0, 0x55) ∧ sees (runs 0xF11E ((regs [(1, 1)]).setIndex 0x0FFF)) (·.index) = some 0x1000 := by decide
/-- T-RND-1, T-RND-2: for every draw, only the bits under the mask can be set. -/
theorem test_rnd : sees (exec (.rndVxNn 1 0x0F) State.reset) (fun t => (t.reg 1, t.draws)) =
    some (Config.randomByte 0 &&& 0x0F, 1) := rfl
/-- T-DRW-3 (row 31 begins at 31 * 64 = 1984), T-DRW-5. -/
theorem test_drw : sees (runs 0xD011 (bytesAt 0x300 [0xFF] ((regs [(0, 63), (1, 31)]).setIndex 0x300)))
      (fun t => (litCells t, t.reg 15)) =
    some ([1984, 1985, 1986, 1987, 1988, 1989, 1990, 2047], 0) ∧
    sees (runs 0xD011 (bytesAt 0x300 [0xC0] ((State.reset.setFb (State.reset.fb.setCell 0 0 true)).setIndex 0x300)))
      (fun t => (litCells t, t.reg 15)) = some ([1], 1) := by decide
/-- T-DRW-1, T-DRW-2. -/
theorem test_drw_bounds : sees (runs 0xD010 ((regs [(15, 1)]).setIndex 0xFFFF)) (fun t => (litCells t, t.reg 15)) = some ([], 0) ∧
    faults (runs 0xD013 (State.reset.setIndex 0x0FFE)) = some (.outOfBounds 0x200 (some 0xD013) 0x1000) := by decide
/-- T-KEY-1, T-KEY-2. -/
theorem test_skp : sees (runs 0xE59E (press 10 (regs [(5, 0x0A)]))) (·.pc) = some 0x204 ∧
    sees (runs 0xE59E (regs [(5, 0x0A)])) (·.pc) = some 0x202 := by decide
/-- T-KEY-5. -/
theorem test_skp_bad_key : faults (runs 0xE59E (regs [(5, 0x10)])) = some (.badKeyIndex 0x200 0xE59E 16) := by decide
/-- T-KEY-3, T-KEY-4. -/
theorem test_sknp : sees (runs 0xE5A1 (regs [(5, 0x0A)])) (·.pc) = some 0x204 ∧
    sees (runs 0xE5A1 (press 10 (regs [(5, 0x0A)]))) (·.pc) = some 0x202 := by decide
/-- T-KEY-6. -/
theorem test_sknp_bad_key : faults (runs 0xE5A1 (regs [(5, 0xFF)])) = some (.badKeyIndex 0x200 0xE5A1 255) := by decide
/-- T-F-1. -/
theorem test_ld_vx_dt : sees (runs 0xF307 (State.reset.setDt 0x3C)) (·.reg 3) = some 0x3C := by decide
/-- T-F-2. -/
theorem test_ld_vx_k : sees (runs 0xF30A (press 9 (press 3 State.reset))) (fun t => (t.reg 3, t.pc)) = some (3, 0x202) := by decide
/-- T-F-3. -/
theorem test_ld_vx_k_waits : sees (runs 0xFF0A (regs [(15, 0x55)])) (fun t => (t.reg 15, t.pc)) = some (0x55, 0x200) := by decide
/-- T-F-4. -/
theorem test_ld_dt_vx : sees (runs 0xF115 (regs [(1, 60)])) (·.dt) = some 60 := by decide
/-- T-F-5. -/
theorem test_ld_st_vx : sees (runs 0xF118 (regs [(1, 2)])) (fun t => (t.st, t.beep, t.tick.beep, t.tick.tick.beep, t.tick.tick.st)) =
    some (2, false, true, false, 0) := by decide
/-- T-F-6, T-F-7. -/
theorem test_ld_f : sees (runs 0xF229 (regs [(2, 0x1A)])) (·.index) = some 0x0032 ∧
    sees (runs 0xF229 (regs [(2, 0xFF)])) (·.index) = some 0x004B := by decide
/-- T-F-9, T-F-11. -/
theorem test_ld_b : sees (runs 0xF133 ((regs [(1, 128)]).setIndex 0x300)) (fun t => (t.byteAt 0x300, t.byteAt 0x301, t.byteAt 0x302)) =
    some (1, 2, 8) ∧
    sees (runs 0xF133 ((regs [(1, 100)]).setIndex 0xFFD)) (fun t => (t.byteAt 0xFFD, t.byteAt 0xFFE, t.byteAt 0xFFF)) =
    some (1, 0, 0) := by decide
/-- T-F-12. -/
theorem test_ld_b_bounds : faults (runs 0xF133 ((regs [(1, 100)]).setIndex 0xFFE)) =
    some (.outOfBounds 0x200 (some 0xF133) 0x1000) := by decide
/-- T-F-13, T-F-15. -/
theorem test_ld_mem_vx : sees (runs 0xF055 (bytesAt 0x301 [7] ((regs [(0, 0xAA), (1, 0xBB)]).setIndex 0x300)))
      (fun t => (t.byteAt 0x300, t.byteAt 0x301, t.index)) = some (0xAA, 7, 0x300) ∧
    faults (runs 0xFF55 (State.reset.setIndex 0xFF1)) = some (.outOfBounds 0x200 (some 0xFF55) 0x1000) := by decide
/-- T-PAR-8. -/
theorem test_ld_mem_vx_increment : sees (runs 0xF255 (under { defaultConfig with indexIncrement := .xPlus1 }
    ((regs [(0, 1), (1, 2), (2, 3)]).setIndex 0x300))) (fun t => (t.byteAt 0x300, t.byteAt 0x301, t.byteAt 0x302, t.index)) =
    some (1, 2, 3, 0x303) := by decide
/-- T-F-16: the first 16 bytes of the default font. -/
theorem test_ld_vx_mem : sees (runs 0xFF65 State.reset) (fun t => t.v.toList) =
    some [0xF0, 0x90, 0x90, 0x90, 0xF0, 0x20, 0x60, 0x20, 0x20, 0x70, 0xF0, 0x10, 0xF0, 0x80, 0xF0, 0xF0] := by decide
/-- T-PAR-9. -/
theorem test_ld_vx_mem_increment : sees (runs 0xF265 (under { defaultConfig with indexIncrement := .xPlus1 }
    (bytesAt 0x300 [2, 5, 4] (State.reset.setIndex 0x300)))) (fun t => (t.reg 0, t.reg 1, t.reg 2, t.reg 3, t.index)) =
    some (2, 5, 4, 0, 0x303) := by decide

/-! The host interface. -/

/-- T-TMR-1, T-TMR-2, E8. -/
theorem test_tick : ((State.reset.setDt 5).setSt 0xFF).tick = (State.reset.setDt 4).setSt 0xFE ∧
    (State.reset.setSt 2).tick = State.reset.setSt 1 ∧ State.reset.tick = State.reset ∧ (State.reset.setSt 1).beep = true := by
  decide
/-- E9, T-HOST-1. -/
theorem test_load : imageFits (List.replicate 3584 1) = true ∧ imageFits (List.replicate 3585 1) = false ∧
    State.reset.load [] = State.reset := by
  refine ⟨?_, ?_, rfl⟩ <;> simp [imageFits]
/-- T-HOST-4. -/
theorem test_nothing_after_a_fault :
    hostCall .reset (State.reset.enterFaulted (.stackUnderflow 0x200 0x00EE)) = .error .notAdmitted := rfl
/-- E10, with a state that differs in a register, a font byte, the stack and a key. -/
theorem test_reset : (press 3 (bytesAt 0x000 [1, 2] (stacked 1 0x20A (regs [(0, 9)])))).hostReset = State.reset := by decide
/-- T-HOST-5. -/
theorem test_read_framebuffer :
    ((State.reset.setFb (State.reset.fb.setCell 5 2 true)).fb.cells).getD (2 * 64 + 5) false = true := by decide

/-! Witnesses: for each statement with hypotheses, a concrete state and operands that meet them, clause by clause. -/

/-- A state that is faulted. -/
def stopped : State := State.reset.enterFaulted (.stackUnderflow 0x200 0x00EE)

theorem reset_cell (px : Fin 64) (py : Fin 32) : State.reset.cell px py = false := by
  simp [State.cell, Framebuffer.cell, State.reset]

theorem reset_inv : StateInv State.reset := by
  refine ⟨⟨List.Pairwise.nil, fun c h => absurd h List.not_mem_nil⟩, by decide, by decide⟩

theorem witness_decode_of_encode : Instr.wf .v0 (.jpV0Nnn 0xFFF) = true ∧ Instr.wf .absent .nop = true := by decide
theorem witness_encode_of_decode : decode .vx 0xBFFF = .instr (.jpV0Nnn 0xFFF) ∧ decode .absent 0xFF65 = .instr (.ldVxMem 15) := by
  decide
theorem witness_decode_matches_rows :
    (∃ r ∈ opcodeRows .v0, r.matchesWord 0xB000 = true) ∧ (∀ r ∈ opcodeRows .absent, r.matchesWord 0xB000 = false) ∧
    ((bytesAt 0xFFE [0x51, 0x21] (State.reset.setPc 0xFFE)).status = .running ∧ (0xFFE : Word).toNat + 1 < 4096 ∧
      decode .v0 ((bytesAt 0xFFE [0x51, 0x21] (State.reset.setPc 0xFFE)).wordAt 0xFFE) = .unknown 0x5121) := by decide
theorem witness_step_runs :
    ((State.reset.setPc 0xFFE).status = .running ∧ (State.reset.setPc 0xFFE).pc.toNat + 1 < 4096 ∧
      decode .v0 ((State.reset.setPc 0xFFE).wordAt 0xFFE) = .instr .nop) ∧
    (decode .v0 ((bytesAt 0x200 [0x51, 0x21] State.reset).wordAt 0x200) = .unknown 0x5121) ∧
    (¬ (State.reset.setPc 0xFFF).pc.toNat + 1 < 4096) ∧ stopped.status = .faulted (.stackUnderflow 0x200 0x00EE) ∧
    faults (step (State.reset.setPc 0xFFF)) = some (.outOfBounds 0xFFF none 4096) := by decide
theorem witness_fetch : (State.reset.setPc 4094).pc.toNat ≤ 4094 ∧ (State.reset.setPc 4095).pc.toNat = 4095 ∧
    4096 ≤ (State.reset.setPc 4096).pc.toNat := by decide
theorem witness_precise_fault : hostCall .step (State.reset.setPc 0xFFF) =
    .ok ((State.reset.setPc 0xFFF).enterFaulted (.outOfBounds 0xFFF none 4096), .fault (.outOfBounds 0xFFF none 4096)) := rfl
theorem witness_fault_conditions :
    FaultCondition State.reset .ret ∧ FaultCondition (stacked 16 0 State.reset) (.call 0x300) ∧
    FaultCondition (under { defaultConfig with jumpOffsetReg := .absent } State.reset) (.jpV0Nnn 0x300) ∧
    FaultCondition (State.reset.setIndex 0xFFF) (.drwVxVyN 0 0 2) ∧
    FaultCondition (regs [(5, 16)]) (.skpVx 5) ∧ FaultCondition (regs [(5, 16)]) (.sknpVx 5) ∧
    FaultCondition (State.reset.setIndex 0xFFE) (.ldBVx 0) ∧ FaultCondition (State.reset.setIndex 0xFFF) (.ldMemVx 1) ∧
    FaultCondition (State.reset.setIndex 0xFFF) (.ldVxMem 1) := by
  simp only [FaultCondition, DataInBounds, State.dataBase]; decide
theorem witness_no_fault_conditions :
    ¬ FaultCondition State.reset .nop ∧ ¬ FaultCondition (stacked 16 0 State.reset) .ret ∧
    ¬ FaultCondition (stacked 15 0 State.reset) (.call 0x300) ∧ ¬ FaultCondition State.reset (.jpV0Nnn 0x300) ∧
    ¬ FaultCondition (State.reset.setIndex 0xFFF) (.drwVxVyN 0 0 1) ∧
    ¬ FaultCondition (State.reset.setIndex 0xFFFF) (.drwVxVyN 0 0 0) ∧
    ¬ FaultCondition (regs [(5, 15)]) (.skpVx 5) ∧ ¬ FaultCondition (regs [(5, 15)]) (.sknpVx 5) ∧
    ¬ FaultCondition (State.reset.setIndex 0xFFD) (.ldBVx 0) ∧ ¬ FaultCondition (State.reset.setIndex 0xFFF) (.ldMemVx 0) ∧
    ¬ FaultCondition (State.reset.setIndex 0xFF0) (.ldVxMem 15) := by
  simp only [FaultCondition, DataInBounds, State.dataBase]; decide
theorem witness_fault_record : faults (step (State.reset.setPc 0x1000)) = some (.outOfBounds 0x1000 none 4096) ∧
    faults (runs 0xE59E (regs [(5, 255)])) = some (.badKeyIndex 0x200 0xE59E 255) ∧
    (Fault.outOfBounds 0x1000 none 4096).code = 1 ∧ (Fault.badKeyIndex 0x200 0xE59E 255).code = 5 := by decide
theorem witness_places : exec (.addVxVy 15 15) State.reset = .next ((State.reset.setReg 15 0).setReg 15 0) := rfl
theorem witness_flag_writers : exec (.addIVx 15) State.reset = .next State.reset ∧
    Instr.addIVx 15 ∈ [Instr.nop, .addIVx 15] ∧ (14 : RegIdx) ≠ flagReg ∧
    exec (.ldVxMem 14) State.reset = .next ((State.reset.setRegs (setRegRange State.reset.v 0
      [0xF0, 0x90, 0x90, 0x90, 0xF0, 0x20, 0x60, 0x20, 0x20, 0x70, 0xF0, 0x10, 0xF0, 0x80, 0xF0])).setIndex 0) ∧
    exec (.orVxVy 14 15) State.reset = .next (State.reset.setReg 14 0) ∧
    exec (.addVxVy 15 0) State.reset = .next ((State.reset.setReg 15 0).setReg 15 0) := ⟨rfl, by decide, by decide, rfl, rfl, rfl⟩
theorem witness_not_the_stack : Instr.jp 0xFFF ≠ .ret ∧ ∀ nnn, Instr.jp 0xFFF ≠ .call nnn := ⟨nofun, nofun⟩
theorem witness_not_the_framebuffer : Instr.ret ≠ .cls ∧ ∀ x y n, Instr.ret ≠ .drwVxVyN x y n := ⟨nofun, nofun⟩
theorem witness_not_the_keypad : (∀ x, Instr.nop ≠ .skpVx x ∧ Instr.nop ≠ .sknpVx x ∧ Instr.nop ≠ .ldVxK x) ∧
    exec (.ldVxK 0) (press 3 State.reset) = .next ((press 3 State.reset).setReg 0 3) ∧
    hostCall .advanceTimers State.reset = .ok (State.reset, .beep false) ∧
    HostOp.advanceTimers ≠ .reset ∧ ∀ k b, HostOp.advanceTimers ≠ .setKeyState k b :=
  ⟨fun _ => ⟨nofun, nofun, nofun⟩, rfl, rfl, nofun, nofun⟩
theorem witness_not_the_timers : (∀ x, Instr.ldVxK 0 ≠ .ldVxDt x ∧ Instr.ldVxK 0 ≠ .ldDtVx x) ∧
    ∀ x, Instr.ldVxK 0 ≠ .ldStVx x := ⟨fun _ => ⟨nofun, nofun⟩, nofun⟩
theorem witness_not_memory : (∀ x y n, Instr.ret ≠ .drwVxVyN x y n) ∧
    (∀ x, Instr.ret ≠ .ldBVx x ∧ Instr.ret ≠ .ldMemVx x ∧ Instr.ret ≠ .ldVxMem x) ∧
    exec (.drwVxVyN 0 0 0) State.reset = .next (State.reset.setReg 15 0) ∧
    exec (.ldVxMem 0) State.reset = .next ((State.reset.setRegs (setRegRange State.reset.v 0 [0xF0])).setIndex 0) :=
  ⟨nofun, fun _ => ⟨nofun, nofun, nofun⟩, rfl, rfl⟩
theorem witness_step_keeps_invariant : StateInv State.reset ∧ step State.reset = .next (State.reset.setPc 0x202) :=
  ⟨reset_inv, rfl⟩
theorem witness_host_keeps_invariant : StateInv State.reset ∧
    hostCall (.loadProgram []) State.reset = .ok (State.reset, .ok) := ⟨reset_inv, rfl⟩
theorem witness_host_run : hostRun [.reset, .advanceTimers] (State.initial defaultConfig) =
    .ok ((State.initial defaultConfig).hostReset.tick, [.nothing, .beep false]) := rfl
theorem witness_return : (stacked 16 0x206 State.reset).sp.val = (15 : Fin 16).val + 1 ∧
    (stacked 1 0x206 State.reset).sp.val = (0 : Fin 16).val + 1 ∧ State.reset.sp.val = 0 := by decide
theorem witness_call : State.reset.sp.val = (0 : Fin 16).val ∧ (stacked 15 0 State.reset).sp.val = (15 : Fin 16).val ∧
    (stacked 16 0 State.reset).sp.val = 16 := by decide
theorem witness_return_after_call : ∃ t u, exec (.call 0x300) State.reset = .next t ∧ u = t.setPc 0x3FE ∧
    u.stack = t.stack ∧ u.sp = t.sp := ⟨_, _, rfl, rfl, rfl, rfl⟩
theorem witness_jump_offset : State.reset.config.jumpOffsetReg = .v0 ∧
    (under { defaultConfig with jumpOffsetReg := .vx } State.reset).config.jumpOffsetReg = .vx ∧
    (0xFFF : Addr12).toNat / 256 = (15 : RegIdx).val ∧
    (under { defaultConfig with jumpOffsetReg := .absent } State.reset).config.jumpOffsetReg = .absent := by decide
theorem witness_register_skips : (1 : Fin 16) ≠ 0 ∧ (15 : Fin 16) ≠ 0 := by decide
theorem witness_logic : (Instr.andVxVy 1 2, (0x0C : Byte)) ∈
    [(Instr.orVxVy 1 2, (0x3F : Byte)), (.andVxVy 1 2, (0x3C : Byte) &&& 0x0F), (.xorVxVy 1 2, 0x33)] := by decide
theorem witness_add : (14 : RegIdx) ≠ flagReg := by decide
theorem witness_subtract : (Instr.subnVxVy 14 2, 3, 5) ∈ [(Instr.subVxVy 14 2, 5, 3), (.subnVxVy 14 2, 3, 5)] ∧
    State.reset.config.subPolarity = .notBorrow ∧
    (under { defaultConfig with subPolarity := .borrow } State.reset).config.subPolarity = .borrow ∧
    (14 : RegIdx) ≠ flagReg := by decide
theorem witness_shift :
    (1 : RegIdx) = (match State.reset.config.shiftSource with | .vx => 1 | .vy => 2) ∧
    (2 : RegIdx) = (match (under { defaultConfig with shiftSource := .vy } State.reset).config.shiftSource with
      | .vx => 1 | .vy => 2) ∧ (1 : RegIdx) ≠ flagReg := by decide
theorem witness_random : (0x0F : Byte).getLsbD 4 = false := by decide

/-- A one-row sprite of eight 1 bits at I = 0x300, to be drawn at the corner. -/
def corner : State := bytesAt 0x300 [0xFF] ((regs [(0, 63), (1, 31)]).setIndex 0x300)

theorem corner_covers : SpriteCovers corner (corner.reg 0) (corner.reg 1) 1 63 31 :=
  ⟨0, 0, by decide, by decide, by decide, by decide, by decide⟩
theorem corner_covers_not : ¬ SpriteCovers corner (corner.reg 0) (corner.reg 1) 1 0 0 := by
  rintro ⟨r, c, hr, -, -, hy, -⟩
  have h0 : r = 0 := by omega
  subst h0
  exact absurd hy (by decide)
theorem corner_cell (px : Fin 64) (py : Fin 32) : corner.cell px py = false := reset_cell px py
theorem witness_draw : DataInBounds corner (1 : Count).val ∧ DataInBounds (State.reset.setIndex 0xFFF) (1 : Count).val ∧
    DataInBounds (State.reset.setIndex 0xFFFF) (0 : Count).val ∧ ¬ DataInBounds (State.reset.setIndex 0xFFF) (2 : Count).val ∧
    (∃ px py, SpriteCovers corner (corner.reg 0) (corner.reg 1) 1 px py) ∧
    (∃ px py, ¬ SpriteCovers corner (corner.reg 0) (corner.reg 1) 1 px py) ∧
    (∀ px py, SpriteCovers corner (corner.reg 0) (corner.reg 1) 1 px py → corner.cell px py = false) := by
  refine ⟨?_, ?_, ?_, ?_, ⟨_, _, corner_covers⟩, ⟨_, _, corner_covers_not⟩, fun px py _ => corner_cell px py⟩ <;>
    simp only [DataInBounds, State.dataBase] <;> decide
theorem witness_draw_collides : ∃ px py, SpriteCovers (allLit corner) ((allLit corner).reg 0) ((allLit corner).reg 1) 1 px py ∧
    (allLit corner).cell px py = true :=
  ⟨63, 31, ⟨0, 0, by decide, by decide, by decide, by decide, by decide⟩, by decide⟩
theorem witness_draw_corner : corner.reg 0 = 63 ∧ corner.reg 1 = 31 ∧ corner.index.toNat < 4096 ∧
    corner.byteAt corner.index.toNat = 0xFF := by decide
theorem witness_draw_twice : (0 : RegIdx) ≠ flagReg ∧ (1 : RegIdx) ≠ flagReg ∧ (∃ t, exec (.drwVxVyN 0 1 1) corner = .next t) ∧
    (∃ px py, SpriteCovers corner (corner.reg 0) (corner.reg 1) (1 : Count).val px py) ∧
    (∀ px py, SpriteCovers corner (corner.reg 0) (corner.reg 1) (1 : Count).val px py → corner.cell px py = false) :=
  ⟨by decide, by decide, ⟨_, rfl⟩, ⟨_, _, corner_covers⟩, fun px py _ => corner_cell px py⟩
theorem witness_key_skips : ((regs [(5, 0)]).reg 5).toNat = (0 : Fin 16).val ∧
    ((regs [(5, 15)]).reg 5).toNat = (15 : Fin 16).val ∧ 16 ≤ ((regs [(5, 16)]).reg 5).toNat ∧
    16 ≤ ((regs [(5, 255)]).reg 5).toNat := by decide
theorem witness_key_wait :
    ((press 15 State.reset).key 15 = true ∧ ∀ j : Fin 16, j < 15 → (press 15 State.reset).key j = false) ∧
    ((press 0 State.reset).key 0 = true ∧ ∀ j : Fin 16, j < 0 → (press 0 State.reset).key j = false) ∧
    (∀ k, State.reset.key k = false) ∧
    ((bytesAt 0xFFE [0xF3, 0x0A] (State.reset.setPc 0xFFE)).wordAt 0xFFE = 0xF30A ∧
      (∀ k, (bytesAt 0xFFE [0xF3, 0x0A] (State.reset.setPc 0xFFE)).key k = false)) := by decide
theorem witness_bcd : (State.reset.setIndex 0xFFD).index.toNat + 2 < 4096 ∧ 4096 ≤ (State.reset.setIndex 0xFFE).index.toNat + 2 := by
  decide
theorem witness_dump_and_load : (State.reset.setIndex 0xFF0).index.toNat + (15 : RegIdx).val < 4096 ∧
    4096 ≤ (State.reset.setIndex 0xFF1).index.toNat + (15 : RegIdx).val ∧ State.reset.config.indexIncrement = .unchanged ∧
    (under { defaultConfig with indexIncrement := .xPlus1 } State.reset).config.indexIncrement = .xPlus1 := by decide
theorem witness_load_after_dump : ∃ t u, exec (.ldMemVx 15) (State.reset.setIndex 0xFF0) = .next t ∧ u = regs [] ∧
    (u.setMem t.mem).mem = t.mem ∧ ((u.setMem t.mem).setIndex 0xFF0).index = (State.reset.setIndex 0xFF0).index :=
  ⟨_, _, rfl, rfl, rfl, rfl⟩
theorem witness_memory : 4096 ≤ 4096 ∧ 4095 < 4096 ∧ 4094 ≠ 4095 := by decide
theorem witness_fetch_after_store : (∃ t, exec (.ldMemVx 1) (State.reset.setIndex 0x200) = .next t) ∧
    (0 : RegIdx).val + 1 = (1 : RegIdx).val ∧ (1 : RegIdx) ≤ 1 ∧
    (State.reset.setIndex 0x200).pc.toNat = (State.reset.setIndex 0x200).index.toNat + (0 : RegIdx).val :=
  ⟨⟨_, rfl⟩, by decide, by decide, by decide⟩
/-- For the statements about a running core: a tick, a reset, a framebuffer read. -/
theorem witness_running : State.reset.status = .running := rfl
theorem witness_load_program : State.reset.status = .running ∧ (List.replicate 3584 (1 : Byte)).length ≤ 3584 ∧
    3584 < (List.replicate 3585 (1 : Byte)).length := ⟨rfl, by simp, by simp⟩
theorem witness_set_key : State.reset.status = .running ∧ 15 = (15 : Fin 16).val ∧ 16 ≤ 16 := by decide

end Sys2Proof.Tests
end

/-! SUPPORT. Which parts of the machine an instruction uses, proved once for all instructions and all parts (10_state.md R23, R28,
R30 to R33; 20_memory.md R47): executing an instruction on a machine with one part taken from another machine gives the same
answer, with that part untouched, unless the instruction is one of those that use the part. -/

section
namespace Sys2Proof.Machine

/-- The parts of the machine that only some instructions use. -/
inductive Component where
  | stack
  | memory
  | screen
  | keypad
  | delay
  | sound

/-- `s` with the part `p` taken from `d`. -/
def Component.graft : Component → State → State → State
  | .stack, d, s => s.withStack d.stack d.sp
  | .memory, d, s => s.setMem d.mem
  | .screen, d, s => s.setFb d.fb
  | .keypad, d, s => s.withKeys d.keys
  | .delay, d, s => s.setDt d.dt
  | .sound, d, s => s.setSt d.st

/-- The instructions that read or write the part. -/
def Component.UsedBy : Component → Instr → Prop
  | .stack, i => i = .ret ∨ ∃ nnn, i = .call nnn
  | .memory, i => (∃ x y n, i = .drwVxVyN x y n) ∨ ∃ x, i = .ldBVx x ∨ i = .ldMemVx x ∨ i = .ldVxMem x
  | .screen, i => i = .cls ∨ ∃ x y n, i = .drwVxVyN x y n
  | .keypad, i => ∃ x, i = .skpVx x ∨ i = .sknpVx x ∨ i = .ldVxK x
  | .delay, i => ∃ x, i = .ldVxDt x ∨ i = .ldDtVx x
  | .sound, i => ∃ x, i = .ldStVx x

/-! What a graft leaves alone: registers, I, pc, parameters, draws, and every part but its own. -/

section
variable (p : Component) (d s : State)

@[simp] theorem Component.graft_v : (p.graft d s).v = s.v := by cases p <;> rfl
@[simp] theorem Component.graft_index : (p.graft d s).index = s.index := by cases p <;> rfl
@[simp] theorem Component.graft_pc : (p.graft d s).pc = s.pc := by cases p <;> rfl
@[simp] theorem Component.graft_config : (p.graft d s).config = s.config := by cases p <;> rfl
@[simp] theorem Component.graft_draws : (p.graft d s).draws = s.draws := by cases p <;> rfl
@[simp] theorem Component.graft_reg (j : RegIdx) : (p.graft d s).reg j = s.reg j := by cases p <;> rfl

theorem Component.graft_mem {p : Component} (h : p ≠ .memory) : (p.graft d s).mem = s.mem := by
  cases p with
  | memory => exact absurd rfl h
  | _ => rfl

theorem Component.graft_fb {p : Component} (h : p ≠ .screen) : (p.graft d s).fb = s.fb := by
  cases p with
  | screen => exact absurd rfl h
  | _ => rfl

theorem Component.graft_keys {p : Component} (h : p ≠ .keypad) : (p.graft d s).keys = s.keys := by
  cases p with
  | keypad => exact absurd rfl h
  | _ => rfl

theorem Component.graft_dt {p : Component} (h : p ≠ .delay) : (p.graft d s).dt = s.dt := by
  cases p with
  | delay => exact absurd rfl h
  | _ => rfl

/-! A graft commutes with the updates of every other place. -/

@[simp] theorem Component.setReg_graft (x : RegIdx) (b : Byte) :
    (p.graft d s).setReg x b = p.graft d (s.setReg x b) := by cases p <;> rfl
@[simp] theorem Component.setRegs_graft (r : Vector Byte 16) :
    (p.graft d s).setRegs r = p.graft d (s.setRegs r) := by cases p <;> rfl
@[simp] theorem Component.setIndex_graft (w : Word) :
    (p.graft d s).setIndex w = p.graft d (s.setIndex w) := by cases p <;> rfl
@[simp] theorem Component.setPc_graft (w : Word) : (p.graft d s).setPc w = p.graft d (s.setPc w) := by cases p <;> rfl
@[simp] theorem Component.countDraw_graft : (p.graft d s).countDraw = p.graft d s.countDraw := by cases p <;> rfl

theorem Component.setMem_graft {p : Component} (h : p ≠ .memory) (m : Memory) :
    (p.graft d s).setMem m = p.graft d (s.setMem m) := by
  cases p with
  | memory => exact absurd rfl h
  | _ => rfl

theorem Component.setFb_graft {p : Component} (h : p ≠ .screen) (f : Framebuffer) :
    (p.graft d s).setFb f = p.graft d (s.setFb f) := by
  cases p with
  | screen => exact absurd rfl h
  | _ => rfl

theorem Component.setDt_graft {p : Component} (h : p ≠ .delay) (b : Byte) :
    (p.graft d s).setDt b = p.graft d (s.setDt b) := by
  cases p with
  | delay => exact absurd rfl h
  | _ => rfl

theorem Component.setSt_graft {p : Component} (h : p ≠ .sound) (b : Byte) :
    (p.graft d s).setSt b = p.graft d (s.setSt b) := by
  cases p with
  | sound => exact absurd rfl h
  | _ => rfl

theorem Component.push_graft {p : Component} (h : p ≠ .stack) (w : Word) :
    (p.graft d s).push w = (s.push w).map (p.graft d) := by
  cases p with
  | stack => exact absurd rfl h
  | _ => unfold State.push; rw [apply_dite (Option.map _)]; rfl

theorem Component.pop_graft {p : Component} (h : p ≠ .stack) :
    (p.graft d s).pop = s.pop.map fun r => (r.1, p.graft d r.2) := by
  obtain ⟨v, index, pc, stack, ⟨_ | n, hn⟩, mem, fb, keys, dt, st, status, config, draws⟩ := s <;>
  cases p with
  | stack => exact absurd rfl h
  | _ => rfl

/-! A graft commutes with the shared operations made of these. -/

@[simp] theorem Component.skipIf_graft (c : Bool) : (p.graft d s).skipIf c = p.graft d (s.skipIf c) := by
  cases c
  · rfl
  · simp [State.skipIf, State.advancePc]

@[simp] theorem Component.rewindPc_graft : (p.graft d s).rewindPc = p.graft d s.rewindPc := by
  simp [State.rewindPc]

@[simp] theorem Component.setResultFlag_graft (x : RegIdx) (b : Byte) (c : Bool) :
    (p.graft d s).setResultFlag x b c = p.graft d (s.setResultFlag x b c) := by
  simp [State.setResultFlag]

@[simp] theorem Component.setLogicResult_graft (x : RegIdx) (b : Byte) :
    (p.graft d s).setLogicResult x b = p.graft d (s.setLogicResult x b) := by
  cases hc : s.config.logicResetsVF <;> simp [State.setLogicResult, hc]

@[simp] theorem Component.shiftOperand_graft (x y : RegIdx) : (p.graft d s).shiftOperand x y = s.shiftOperand x y := by
  simp [State.shiftOperand]

@[simp] theorem Component.jumpOffset_graft (nnn : Addr12) : (p.graft d s).jumpOffset nnn = s.jumpOffset nnn := by
  simp [State.jumpOffset]

@[simp] theorem Component.bulkIndex_graft (x : RegIdx) : (p.graft d s).bulkIndex x = s.bulkIndex x := by
  simp [State.bulkIndex]

@[simp] theorem Component.dataBase_graft : (p.graft d s).dataBase = s.dataBase := by simp [State.dataBase]

@[simp] theorem Component.regsUpTo_graft (x : RegIdx) : (p.graft d s).regsUpTo x = s.regsUpTo x := by
  simp [State.regsUpTo]

@[simp] theorem Component.raise_graft (i : Instr) (k : Word → Word → Fault) :
    raise i (p.graft d s) k = mapNext (p.graft d) (raise i s k) := by
  simp [raise, State.fetchAddr, mapNext]

@[simp] theorem Component.raiseOutOfBounds_graft (i : Instr) (a : Nat) :
    raiseOutOfBounds i (p.graft d s) a = mapNext (p.graft d) (raiseOutOfBounds i s a) := by
  simp [raiseOutOfBounds]

theorem Component.key_graft {p : Component} (h : p ≠ .keypad) (k : Fin 16) : (p.graft d s).key k = s.key k := by
  simp only [State.key, graft_keys d s h]

theorem Component.firstPressed_graft {p : Component} (h : p ≠ .keypad) :
    (p.graft d s).firstPressed = s.firstPressed := by
  simp only [State.firstPressed, graft_keys d s h]

theorem Component.drawSprite_graft {p : Component} (h : p ≠ .screen) (x y : Byte) (rows : List Byte) :
    (p.graft d s).drawSprite x y rows = s.drawSprite x y rows := by
  simp only [State.drawSprite, graft_fb d s h]

end

/-- Taking a part from the machine itself changes nothing. -/
@[simp] theorem Component.graft_self (p : Component) (s : State) : p.graft s s = s := by cases p <;> rfl

/-! The key skips in their two cases (R150 to R152). -/

theorem exec_skpVx_of_key {s : State} {x : RegIdx} {k : Fin 16} (h : (s.reg x).toNat = k.val) :
    exec (.skpVx x) s = .next (s.skipIf (s.key k)) := by
  simp [exec, execSkpVx, h]

theorem exec_sknpVx_of_key {s : State} {x : RegIdx} {k : Fin 16} (h : (s.reg x).toNat = k.val) :
    exec (.sknpVx x) s = .next (s.skipIf (!s.key k)) := by
  simp [exec, execSknpVx, h]

theorem exec_skpVx_of_badKey {s : State} {x : RegIdx} (h : 16 ≤ (s.reg x).toNat) :
    exec (.skpVx x) s = raise (.skpVx x) s fun a w => .badKeyIndex a w (s.reg x) :=
  dif_neg (Nat.not_lt.mpr h)

theorem exec_sknpVx_of_badKey {s : State} {x : RegIdx} (h : 16 ≤ (s.reg x).toNat) :
    exec (.sknpVx x) s = raise (.sknpVx x) s fun a w => .badKeyIndex a w (s.reg x) :=
  dif_neg (Nat.not_lt.mpr h)

/-- V[X] names a key or is 16 or more. -/
theorem State.reg_key_or_bad (s : State) (x : RegIdx) :
    (∃ k : Fin 16, (s.reg x).toNat = k.val) ∨ 16 ≤ (s.reg x).toNat :=
  (Nat.lt_or_ge _ 16).imp_left fun h => ⟨⟨_, h⟩, rfl⟩

/-- An instruction that does not use a part neither reads nor writes it: with the part taken from any machine it gives the same
answer, with that part untouched. -/
theorem exec_graft (p : Component) (d s : State) (i : Instr) (h : ¬ p.UsedBy i) :
    exec i (p.graft d s) = mapNext (p.graft d) (exec i s) := by
  cases i with
  | nop => rfl
  | jp | ldINnn | addIVx | ldFVx => simp [exec, execJp, execLdINnn, execAddIVx, execLdFVx, mapNext]
  | seVxNn | sneVxNn | seVxVy | sneVxVy => simp [exec, execSeVxNn, execSneVxNn, execSeVxVy, execSneVxVy, mapNext]
  | ldVxNn | addVxNn | ldVxVy => simp [exec, execLdVxNn, execAddVxNn, execLdVxVy, mapNext]
  | orVxVy | andVxVy | xorVxVy => simp [exec, execOrVxVy, execAndVxVy, execXorVxVy, mapNext]
  | addVxVy | subVxVy | subnVxVy => simp [exec, execAddVxVy, execSubVxVy, execSubnVxVy, mapNext]
  | shrVxVy | shlVxVy => simp [exec, execShrVxVy, execShlVxVy, mapNext]
  | rndVxNn => simp [exec, execRndVxNn, State.setMasked, State.nextRandom, mapNext]
  | jpV0Nnn nnn => cases ho : s.jumpOffset nnn <;> simp [exec, execJpV0Nnn, ho, mapNext]
  | cls =>
    have hp : p ≠ .screen := fun e => h (e ▸ .inl rfl)
    simp [exec, execCls, Component.setFb_graft d s hp, mapNext]
  | ret =>
    have hp : p ≠ .stack := fun e => h (e ▸ .inl rfl)
    cases ho : s.pop <;> simp [exec, execRet, Component.pop_graft d s hp, ho, mapNext]
  | call nnn =>
    have hp : p ≠ .stack := fun e => h (e ▸ .inr ⟨nnn, rfl⟩)
    cases ho : s.push s.pc <;> simp [exec, execCall, Component.push_graft d s hp, ho, mapNext]
  | drwVxVyN x y n =>
    have hp : p ≠ .memory := fun e => h (e ▸ .inl ⟨x, y, n, rfl⟩)
    have hq : p ≠ .screen := fun e => h (e ▸ .inr ⟨x, y, n, rfl⟩)
    cases ho : memReadRange s.mem s.dataBase n.val <;>
      simp [exec, execDrwVxVyN, Component.graft_mem d s hp, Component.drawSprite_graft d s hq,
        Component.setFb_graft d s hq, ho, mapNext]
  | skpVx x =>
    have hp : p ≠ .keypad := fun e => h (e ▸ ⟨x, .inl rfl⟩)
    obtain ⟨k, hk⟩ | hk := s.reg_key_or_bad x
    · rw [exec_skpVx_of_key hk, exec_skpVx_of_key (k := k) (by simpa using hk)]
      simp [Component.key_graft d s hp, mapNext]
    · rw [exec_skpVx_of_badKey hk, exec_skpVx_of_badKey (by simpa using hk)]
      simp
  | sknpVx x =>
    have hp : p ≠ .keypad := fun e => h (e ▸ ⟨x, .inr (.inl rfl)⟩)
    obtain ⟨k, hk⟩ | hk := s.reg_key_or_bad x
    · rw [exec_sknpVx_of_key hk, exec_sknpVx_of_key (k := k) (by simpa using hk)]
      simp [Component.key_graft d s hp, mapNext]
    · rw [exec_sknpVx_of_badKey hk, exec_sknpVx_of_badKey (by simpa using hk)]
      simp
  | ldVxDt x =>
    have hp : p ≠ .delay := fun e => h (e ▸ ⟨x, .inl rfl⟩)
    simp [exec, execLdVxDt, Component.graft_dt d s hp, mapNext]
  | ldVxK x =>
    have hp : p ≠ .keypad := fun e => h (e ▸ ⟨x, .inr (.inr rfl)⟩)
    cases ho : s.firstPressed <;> simp [exec, execLdVxK, Component.firstPressed_graft d s hp, ho, mapNext]
  | ldDtVx x =>
    have hp : p ≠ .delay := fun e => h (e ▸ ⟨x, .inr rfl⟩)
    simp [exec, execLdDtVx, Component.setDt_graft d s hp, mapNext]
  | ldStVx x =>
    have hp : p ≠ .sound := fun e => h (e ▸ ⟨x, rfl⟩)
    simp [exec, execLdStVx, Component.setSt_graft d s hp, mapNext]
  | ldBVx x =>
    have hp : p ≠ .memory := fun e => h (e ▸ .inr ⟨x, .inl rfl⟩)
    cases ho : memWriteRange s.mem s.dataBase (bcdDigits (s.reg x)) <;>
      simp [exec, execLdBVx, Component.graft_mem d s hp, Component.setMem_graft d s hp, ho, mapNext]
  | ldMemVx x =>
    have hp : p ≠ .memory := fun e => h (e ▸ .inr ⟨x, .inr (.inl rfl)⟩)
    cases ho : memWriteRange s.mem s.dataBase (s.regsUpTo x) <;>
      simp [exec, execLdMemVx, Component.graft_mem d s hp, Component.setMem_graft d s hp, ho, mapNext]
  | ldVxMem x =>
    have hp : p ≠ .memory := fun e => h (e ▸ .inr ⟨x, .inr (.inr rfl)⟩)
    cases ho : memReadRange s.mem s.dataBase (x.val + 1) <;>
      simp [exec, execLdVxMem, Component.graft_mem d s hp, ho, mapNext]

/-- What an instruction does not use it does not write: the next state holds that part of the state before. -/
theorem eq_graft_of_exec {p : Component} {i : Instr} {s t : State} (h : ¬ p.UsedBy i) (he : exec i s = .next t) :
    t = p.graft s t := by
  have := exec_graft p s s i h
  rw [Component.graft_self, he] at this
  exact Host.Outcome.next.inj this

end Sys2Proof.Machine
end

/-! SUPPORT. What an answer of a draw, of a step and of a host call says, and what each leaves of the keypad. -/

section
namespace Sys2Proof.Machine

/-- A draw that answers read the N sprite bytes at I; the screen is that of the draw and V[F] its collision flag (R141). -/
theorem exec_drwVxVyN_eq_next {x y : RegIdx} {n : Count} {s t : State} (h : exec (.drwVxVyN x y n) s = .next t) :
    ∃ rows, rows = (List.range n.val).map (fun k => s.mem.read (s.dataBase + k)) ∧
      t = (s.setFb (s.drawSprite (s.reg x) (s.reg y) rows).fb).setReg flagReg
        (flagByte (s.drawSprite (s.reg x) (s.reg y) rows).collided) := by
  simp only [exec, execDrwVxVyN, memReadRange_eq] at h
  split at h
  · cases h
  · rename_i rows hrows
    split at hrows <;> cases hrows
    exact ⟨_, rfl, (Host.Outcome.next.inj h).symm⟩

/-- A draw turns over each cell that the sprite covers (R141). -/
theorem cell_of_exec_drwVxVyN {x y : RegIdx} {n : Count} {s t : State} {px : Fin 64} {py : Fin 32}
    (h : exec (.drwVxVyN x y n) s = .next t) (hc : SpriteCovers s (s.reg x) (s.reg y) n.val px py) :
    t.cell px py = !s.cell px py := by
  obtain ⟨rows, hrows, rfl⟩ := exec_drwVxVyN_eq_next h
  have hlen : rows.length ≤ 32 := by have := n.isLt; simp [hrows]; omega
  have hmem : (px, py) ∈ spritePoints (s.reg x).toNat (s.reg y).toNat 0 rows :=
    hrows ▸ (mem_spritePoints_iff_spriteCovers ..).mpr hc
  calc _ = (s.drawSprite (s.reg x) (s.reg y) rows).fb.cell px py := rfl
    _ = !s.cell px py := by rw [(s.drawSprite_spec _ _ rows hlen).1, if_pos hmem]

/-- A step that answers decoded an instruction and executed it with pc advanced (R80). -/
theorem exec_of_step {s t : State} (h : step s = .next t) : ∃ i, exec i s.advancePc = .next t := by
  unfold step at h
  split at h
  · cases h
  · split at h
    · cases h
    · unfold runWord at h
      split at h
      · cases h
      · exact ⟨_, h⟩

/-- A host call that answers is the operation on a running core (R183). -/
theorem admitted_of_hostCall {op : HostOp} {s t : State} {r : Reply} (h : hostCall op s = .ok (t, r)) :
    s.status = .running ∧ s.admitted op = .ok (t, r) := by
  unfold hostCall at h
  split at h
  · cases h
  · exact ⟨‹_›, h⟩

theorem hostCall_of_running {s : State} (op : HostOp) (h : s.status = .running) : hostCall op s = s.admitted op := by
  simp [hostCall, h]

/-- The host's step that answers is a step or a fault of one (R181 to R183). -/
theorem step_of_hostStep {s t : State} {r : Reply} (h : s.hostStep = .ok (t, r)) :
    step s = .next t ∨ ∃ f, step s = .fault f ∧ t = s.enterFaulted f := by
  unfold State.hostStep at h
  split at h <;> cases h
  · exact .inl ‹_›
  · exact .inr ⟨_, ‹_›, rfl⟩

@[simp] theorem State.skipIf_keys (s : State) (c : Bool) : (s.skipIf c).keys = s.keys := by
  cases c <;> rfl

@[simp] theorem State.hostLoad_keys (s : State) (image : List Byte) : (s.hostLoad image).1.keys = s.keys := by
  unfold State.hostLoad; split <;> rfl

/-- No instruction writes the keypad (R30): an instruction that does not use it leaves it alone, and the three that read it write
only pc or a register. -/
theorem keys_of_exec {i : Instr} {s t : State} (h : exec i s = .next t) : t.keys = s.keys := by
  by_cases hu : Component.keypad.UsedBy i
  · obtain ⟨x, rfl | rfl | rfl⟩ := hu
    · obtain ⟨k, hk⟩ | hk := s.reg_key_or_bad x
      · cases (exec_skpVx_of_key hk).symm.trans h; simp
      · cases (exec_skpVx_of_badKey hk).symm.trans h
    · obtain ⟨k, hk⟩ | hk := s.reg_key_or_bad x
      · cases (exec_sknpVx_of_key hk).symm.trans h; simp
      · cases (exec_sknpVx_of_badKey hk).symm.trans h
    · cases hf : s.firstPressed <;> simp only [exec, execLdVxK, hf] at h <;> cases h <;> rfl
  · rw [eq_graft_of_exec hu h]; rfl

theorem keys_of_step {s t : State} (h : step s = .next t) : t.keys = s.keys := by
  obtain ⟨i, hi⟩ := exec_of_step h
  exact (keys_of_exec hi).trans s.advancePc_keys

/-- Of the host's operations only `reset` and `set key state` change the keypad (R30, R197). -/
theorem keys_of_hostCall {op : HostOp} {s t : State} {r : Reply} (h : hostCall op s = .ok (t, r)) (hr : op ≠ .reset)
    (hk : ∀ k b, op ≠ .setKeyState k b) : t.keys = s.keys := by
  obtain ⟨-, h⟩ := admitted_of_hostCall h
  cases op with
  | reset => exact absurd rfl hr
  | setKeyState k b => exact absurd rfl (hk k b)
  | loadProgram image =>
    rw [← s.hostLoad_keys image, Except.ok.inj h]
  | step =>
    obtain hs | ⟨f, -, rfl⟩ := step_of_hostStep h
    · exact keys_of_step hs
    · rfl
  | advanceTimers => cases h; rfl
  | readFramebuffer => cases h; rfl

/-- FX0A takes the key that is pressed with no lower one pressed (R161). -/
theorem exec_ldVxK_of_lowest {s : State} {k : Fin 16} (x : RegIdx) (hk : s.key k = true)
    (hlow : ∀ j, j < k → s.key j = false) : exec (.ldVxK x) s = .next (s.setReg x (BitVec.ofNat 8 k.val)) := by
  simp only [exec, execLdVxK, s.firstPressed_eq_some k |>.mpr ⟨hk, hlow⟩]

theorem State.key_setKey_self (s : State) (k : Fin 16) (b : Bool) : (s.setKey k b).key k = b := by simp [State.key]

/-- A set key state with an index in range sets that key (R199). -/
theorem hostCall_setKeyState {s : State} (k : Fin 16) (b : Bool) (h : s.status = .running) :
    hostCall (.setKeyState k.val b) s = .ok (s.setKey k b, .nothing) :=
  (hostCall_of_running _ h).trans (dif_pos k.isLt)

/-- One count down subtracts 1 and stops at 0 (R33). -/
theorem countDown_toNat (b : Byte) : (countDown b).toNat = b.toNat - 1 := by
  unfold countDown
  split <;> bv_omega

theorem State.initial_slot (c : Config) (j : Fin 16) : (State.initial c).slot j = 0 := by
  simp [State.slot, State.initial, State.reset]

theorem State.initial_cell (c : Config) (px : Fin 64) (py : Fin 32) : (State.initial c).cell px py = false :=
  Framebuffer.cell_blank px py

theorem State.initial_key (c : Config) (k : Fin 16) : (State.initial c).key k = false := by
  simp [State.key, State.initial, State.reset]

/-- Settles O12: the stack and the memory are parts that `exec_graft` covers. -/
theorem stackIsOnlyForCallAndReturn : Obligations.StackIsOnlyForCallAndReturn := by
  refine ⟨fun i s k q hret hcall => ?_, fun s m nnn => ⟨?_, ?_⟩, State.initial_slot⟩
  · exact exec_graft .stack (s.withStack k q) s i (not_or.mpr ⟨hret, not_exists.mpr hcall⟩)
  · exact exec_graft .memory (s.setMem m) s .ret (by simp [Component.UsedBy])
  · exact exec_graft .memory (s.setMem m) s (.call nnn) (by simp [Component.UsedBy])

/-- Settles O13: the screen is a part that `exec_graft` covers; CLS overwrites it whole, and a draw turns over the covered cells. -/
theorem framebufferIsOnlyForClearAndDraw : Obligations.FramebufferIsOnlyForClearAndDraw := by
  refine ⟨fun i s f hcls hdrw => ?_, fun s f => rfl, fun x y n s t px py => cell_of_exec_drwVxVyN,
    fun s px py => s.fb.cells_getElem? px py, State.initial_cell⟩
  exact exec_graft .screen (s.setFb f) s i (not_or.mpr ⟨hcls, fun ⟨x, y, n, e⟩ => hdrw x y n e⟩)

/-- Settles O14: the keypad is a part that `exec_graft` covers, and what changes it is read off the host's operations. -/
theorem keypadIsWrittenOnlyByTheHost : Obligations.KeypadIsWrittenOnlyByTheHost := by
  refine ⟨fun i s k hi => ?_, fun x s k hk => ⟨exec_skpVx_of_key hk, exec_sknpVx_of_key hk⟩,
    fun x s k hk hlow => exec_ldVxK_of_lowest x hk hlow, fun i s t h => keys_of_exec h,
    fun s k b h => ⟨s.setKey k b, hostCall_setKeyState k b h, s.key_setKey_self k b⟩,
    fun op s t r h hr hk => keys_of_hostCall h hr hk, State.initial_key⟩
  refine exec_graft .keypad (s.withKeys k) s i ?_
  rintro ⟨x, e⟩
  obtain ⟨hskp, hsknp, hwait⟩ := hi x
  exact e.elim hskp (Or.elim · hsknp hwait)

/-- Settles O15: the timers are parts that `exec_graft` covers, each of their own instructions writes them whole, and a tick counts
each down. -/
theorem timersChangeOnlyByTicksAndTheirWrites : Obligations.TimersChangeOnlyByTicksAndTheirWrites := by
  refine ⟨fun i s b hi => ?_, fun i s b hi => ?_, fun s b x => ⟨rfl, rfl, rfl, rfl, rfl⟩,
    fun s => ⟨countDown_toNat s.dt, countDown_toNat s.st⟩, fun c => ⟨rfl, rfl⟩⟩
  · exact exec_graft .delay (s.setDt b) s i fun ⟨x, e⟩ => e.elim (hi x).1 (hi x).2
  · exact exec_graft .sound (s.setSt b) s i (not_exists.mpr hi)

end Sys2Proof.Machine
end

/-! SUPPORT. The bounds-checked access to one byte on either side of 4096 (20_memory.md R41, R42). -/

section
namespace Sys2Proof.Machine

theorem memRead_of_ge (m : Memory) {a : Nat} (h : 4096 ≤ a) : memRead m a = .error a := by
  rw [memRead_eq, if_pos h]

theorem memRead_of_lt (m : Memory) {a : Nat} (h : a < 4096) : memRead m a = .ok (m.read a) := by
  rw [memRead_eq, if_neg (Nat.not_le.mpr h)]

theorem memWrite_of_ge (m : Memory) {a : Nat} (b : Byte) (h : 4096 ≤ a) : memWrite m a b = .error a := by
  rw [memWrite_eq, if_pos h]

theorem memWrite_of_lt (m : Memory) {a : Nat} (b : Byte) (h : a < 4096) : memWrite m a b = .ok (m.write a b) := by
  rw [memWrite_eq, if_neg (Nat.not_le.mpr h)]

theorem memRead_write_self (m : Memory) {a : Nat} (b : Byte) (h : a < 4096) : memRead (m.write a b) a = .ok b := by
  rw [memRead_of_lt _ h, Memory.read_write_self]

/-- At any other address, one past the end of memory included, a read answers as it did before the write. -/
theorem memRead_write_of_ne (m : Memory) {a c : Nat} (b : Byte) (h : c ≠ a) : memRead (m.write a b) c = memRead m c := by
  rw [memRead_eq, memRead_eq, Memory.read_write_of_ne m b h]

/-- Settles O52, by the two sides of the bound and the laws of a read after a write. -/
theorem memoryReadAndWriteOneByte : Obligations.MemoryReadAndWriteOneByte := by
  refine fun m a b => ⟨fun h => ⟨memRead_of_ge m h, memWrite_of_ge m b h⟩, fun h => ⟨memRead_of_lt m h, ?_⟩⟩
  exact ⟨m.write a b, memWrite_of_lt m b h, memRead_write_self m b h, fun _ hc => memRead_write_of_ne m b hc⟩

end Sys2Proof.Machine
end

/-! SUPPORT. The opcode table against the decoder (30_encoding.md R63, R64, R67). The family nibble of a word fixes its format and
so which of its nibbles are constant: these nibbles give the one row that the word can match, and decide whether the word is an
instruction. -/

section
namespace Sys2Proof

/-- The constant nibbles of the format of a family (R63). -/
def formatMask (family : BitVec 4) : Word :=
  match family.toNat with
  | 0x0 => 0xFFFF
  | 0x5 | 0x8 | 0x9 => 0xF00F
  | 0xE | 0xF => 0xF0FF
  | _ => 0xF000

/-- The one row that a word can match: the constant nibbles of its format. -/
def rowOfWord (w : Word) : OpcodeRow := ⟨formatMask (fieldFamily w), w &&& formatMask (fieldFamily w)⟩

theorem OpcodeRow.matchesWord_iff {r : OpcodeRow} {w : Word} : r.matchesWord w = true ↔ w &&& r.mask = r.value := beq_iff_eq

theorem and_mask_eq_of_matchesWord {r : OpcodeRow} {w : Word} (hw : r.matchesWord w = true) :
    w &&& r.mask = r.value &&& r.mask := by
  rw [← OpcodeRow.matchesWord_iff.mp hw, BitVec.and_assoc, BitVec.and_self]

theorem rowOfWord_matchesWord (w : Word) : (rowOfWord w).matchesWord w = true := OpcodeRow.matchesWord_iff.mpr rfl

/-- A row of the table masks the constant nibbles of its format, and its own value is an instruction. -/
theorem opcodeRow_spec {p : JumpOffsetReg} : ∀ r ∈ opcodeRows p,
    r.mask = formatMask (fieldFamily r.value) ∧ fieldFamily r.mask = BitVec.allOnes 4 ∧
      decode p r.value ≠ .unknown r.value := by
  cases p <;> decide

/-- Words that agree under a mask agree in every field that the mask covers. -/
theorem extractLsb'_eq_of_and_eq {w v m : Word} (h : w &&& m = v &&& m) {start len : Nat}
    (hm : m.extractLsb' start len = BitVec.allOnes len) : w.extractLsb' start len = v.extractLsb' start len := by
  have hf := congrArg (BitVec.extractLsb' start len) h
  simpa only [BitVec.extractLsb'_and, hm, BitVec.and_allOnes] using hf

theorem fieldFamily_eq_of_matchesWord {p : JumpOffsetReg} {r : OpcodeRow} {w : Word} (hr : r ∈ opcodeRows p)
    (hw : r.matchesWord w = true) : fieldFamily w = fieldFamily r.value := by
  obtain ⟨-, hfam, -⟩ := opcodeRow_spec r hr
  exact extractLsb'_eq_of_and_eq (and_mask_eq_of_matchesWord hw) hfam

/-- A word matches no row of the table but its own. -/
theorem eq_rowOfWord_of_matchesWord {p : JumpOffsetReg} {r : OpcodeRow} {w : Word} (hr : r ∈ opcodeRows p)
    (hw : r.matchesWord w = true) : r = rowOfWord w := by
  obtain ⟨hmask, -, -⟩ := opcodeRow_spec r hr
  rw [rowOfWord, fieldFamily_eq_of_matchesWord hr hw, ← hmask, OpcodeRow.matchesWord_iff.mp hw]

/-! From a word that is an instruction to its row. -/

/-- A word that decodes to an instruction is that instruction's word, and the instruction exists. -/
theorem encode_of_decode {p : JumpOffsetReg} {w : Word} {i : Instr} (h : decode p w = .instr i) :
    encode i = w ∧ i.wf p = true := by
  unfold decode at h
  split at h
  case h_1 => exact (encode_of_decode0 h).imp_right (· p)
  case h_6 hf | h_10 hf => obtain ⟨rfl, hn⟩ := encode_of_decodeLow0 h; exact ⟨encodeRegRegN_fields hf hn, rfl⟩
  case h_9 hf => exact (encode_of_decode8 hf h).imp_right (· p)
  case h_12 hf => exact encode_of_decodeB hf h
  case h_14 hf => obtain rfl := Decoded.instr.inj h; exact ⟨encodeRegRegN_fields hf rfl, rfl⟩
  case h_15 hf => exact (encode_of_decodeE hf h).imp_right (· p)
  case h_16 =>
    have hf : (fieldFamily w).toNat = 0xF := by
      have hlt := (fieldFamily w).isLt
      simp only [imp_false] at *
      omega
    exact (encode_of_decodeF hf h).imp_right (· p)
  case h_2 hf | h_3 hf | h_11 hf => obtain rfl := Decoded.instr.inj h; exact ⟨encodeAddr_fields hf, rfl⟩
  all_goals rename_i hf; obtain rfl := Decoded.instr.inj h; exact ⟨encodeRegImm_fields hf rfl, rfl⟩

section
variable (h : BitVec 4) (x y : RegIdx) (n : Count) (nn : Byte) (nnn : Addr12)

theorem rowOfWord_encodeAddr (hm : formatMask h = 0xF000) :
    rowOfWord (encodeAddr h nnn) = ⟨0xF000, encodeAddr h 0⟩ := by
  rw [rowOfWord, fieldFamily_encodeAddr, hm]
  congr 1
  show (h ++ nnn) &&& (BitVec.allOnes 4 ++ 0#12) = h ++ 0#12
  simp only [BitVec.and_append, BitVec.and_allOnes, BitVec.and_zero]

theorem rowOfWord_encodeRegImm (hm : formatMask h = 0xF000) :
    rowOfWord (encodeRegImm h x nn) = ⟨0xF000, encodeRegImm h 0 0⟩ := by
  rw [rowOfWord, fieldFamily_encodeRegImm, hm]
  congr 1
  show (h ++ BitVec.ofFin (w := 4) x ++ nn) &&& (BitVec.allOnes 4 ++ 0#4 ++ 0#8) = h ++ 0#4 ++ 0#8
  simp only [BitVec.and_append, BitVec.and_allOnes, BitVec.and_zero]

/-- In format `reg` the low byte is constant. -/
theorem rowOfWord_encodeReg (hm : formatMask h = 0xF0FF) :
    rowOfWord (encodeRegImm h x nn) = ⟨0xF0FF, encodeRegImm h 0 nn⟩ := by
  rw [rowOfWord, fieldFamily_encodeRegImm, hm]
  congr 1
  show (h ++ BitVec.ofFin (w := 4) x ++ nn) &&& (BitVec.allOnes 4 ++ 0#4 ++ BitVec.allOnes 8) = h ++ 0#4 ++ nn
  simp only [BitVec.and_append, BitVec.and_allOnes, BitVec.and_zero]

theorem rowOfWord_encodeRegRegN (hm : formatMask h = 0xF000) :
    rowOfWord (encodeRegRegN h x y n) = ⟨0xF000, encodeRegRegN h 0 0 0⟩ := by
  rw [rowOfWord, fieldFamily_encodeRegRegN, hm]
  congr 1
  show (h ++ BitVec.ofFin (w := 4) x ++ BitVec.ofFin (w := 4) y ++ BitVec.ofFin (w := 4) n) &&&
    (BitVec.allOnes 4 ++ 0#4 ++ 0#4 ++ 0#4) = h ++ 0#4 ++ 0#4 ++ 0#4
  simp only [BitVec.and_append, BitVec.and_allOnes, BitVec.and_zero]

/-- In format `reg_reg` the low nibble is constant. -/
theorem rowOfWord_encodeRegReg (hm : formatMask h = 0xF00F) :
    rowOfWord (encodeRegRegN h x y n) = ⟨0xF00F, encodeRegRegN h 0 0 n⟩ := by
  rw [rowOfWord, fieldFamily_encodeRegRegN, hm]
  congr 1
  show (h ++ BitVec.ofFin (w := 4) x ++ BitVec.ofFin (w := 4) y ++ BitVec.ofFin (w := 4) n) &&&
    (BitVec.allOnes 4 ++ 0#4 ++ 0#4 ++ BitVec.allOnes 4) = h ++ 0#4 ++ 0#4 ++ BitVec.ofFin (w := 4) n
  simp only [BitVec.and_append, BitVec.and_allOnes, BitVec.and_zero]

end

/-- The row of an instruction that exists is in the table. -/
theorem rowOfWord_encode_mem {p : JumpOffsetReg} {i : Instr} (h : i.wf p = true) :
    rowOfWord (encode i) ∈ opcodeRows p := by
  cases i with
  | nop | cls | ret => cases p <;> decide
  | jp | call | ldINnn => rw [encode, rowOfWord_encodeAddr _ _ rfl]; cases p <;> decide
  | jpV0Nnn =>
    rw [encode, rowOfWord_encodeAddr _ _ rfl]
    cases p with
    | absent => cases h
    | v0 | vx => decide
  | seVxNn | sneVxNn | ldVxNn | addVxNn | rndVxNn =>
    rw [encode, rowOfWord_encodeRegImm _ _ _ rfl]; cases p <;> decide
  | drwVxVyN => rw [encode, rowOfWord_encodeRegRegN _ _ _ _ rfl]; cases p <;> decide
  | seVxVy | ldVxVy | orVxVy | andVxVy | xorVxVy | addVxVy | subVxVy | shrVxVy | subnVxVy | shlVxVy | sneVxVy =>
    rw [encode, rowOfWord_encodeRegReg _ _ _ _ rfl]; cases p <;> decide
  | skpVx | sknpVx | ldVxDt | ldVxK | ldDtVx | ldStVx | addIVx | ldFVx | ldBVx | ldMemVx | ldVxMem =>
    rw [encode, rowOfWord_encodeReg _ _ _ rfl]; cases p <;> decide

/-! From a row to the words that match it: in each family the decoder's answer depends on the constant nibbles alone. -/

theorem fieldN_eq_of_and_eq {w v m : Word} (h : w &&& m = v &&& m) (hm : m.extractLsb' 0 4 = BitVec.allOnes 4) :
    fieldN w = fieldN v := by
  rw [fieldN, extractLsb'_eq_of_and_eq h hm, fieldN]

theorem decodeLow0_of_fieldN_eq {w v : Word} {i j k : Instr} (hn : fieldN w = fieldN v) (h : decodeLow0 v j = .instr i) :
    decodeLow0 w k = .instr k :=
  if_pos (hn.trans (Fin.ext (encode_of_decodeLow0 h).2))

theorem exists_decode8_of_fieldN_eq {w v : Word} {i : Instr} (hn : fieldN w = fieldN v) (h : decode8 v = .instr i) :
    ∃ k, decode8 w = .instr k := by
  unfold decode8 at h ⊢
  rw [hn]
  generalize (fieldN v).val = n at h ⊢
  split at h
  case h_10 => cases h
  all_goals exact ⟨_, rfl⟩

theorem exists_decodeE_of_fieldNN_eq {w v : Word} {i : Instr} (hn : fieldNN w = fieldNN v) (h : decodeE v = .instr i) :
    ∃ k, decodeE w = .instr k := by
  unfold decodeE at h ⊢
  rw [hn]
  generalize (fieldNN v).toNat = n at h ⊢
  split at h
  case h_3 => cases h
  all_goals exact ⟨_, rfl⟩

theorem exists_decodeF_of_fieldNN_eq {w v : Word} {i : Instr} (hn : fieldNN w = fieldNN v) (h : decodeF v = .instr i) :
    ∃ k, decodeF w = .instr k := by
  unfold decodeF at h ⊢
  rw [hn]
  generalize (fieldNN v).toNat = n at h ⊢
  split at h
  case h_10 => cases h
  all_goals exact ⟨_, rfl⟩

/-- A word that agrees with an instruction's word in the constant nibbles of its format is an instruction. -/
theorem exists_decode_of_and_formatMask_eq {p : JumpOffsetReg} {w v : Word} {i : Instr}
    (hf : fieldFamily w = fieldFamily v)
    (hm : w &&& formatMask (fieldFamily v) = v &&& formatMask (fieldFamily v)) (h : decode p v = .instr i) :
    ∃ k, decode p w = .instr k := by
  unfold decode at h ⊢
  unfold formatMask at hm
  rw [hf]
  have hlt := (fieldFamily v).isLt
  generalize (fieldFamily v).toNat = f at h hm hlt ⊢
  split at h
  case h_1 =>
    have hwv : w &&& BitVec.allOnes 16 = v &&& BitVec.allOnes 16 := hm
    rw [BitVec.and_allOnes, BitVec.and_allOnes] at hwv
    exact ⟨i, hwv ▸ h⟩
  case h_6 | h_10 => exact ⟨_, decodeLow0_of_fieldN_eq (fieldN_eq_of_and_eq hm rfl) h⟩
  case h_9 => exact exists_decode8_of_fieldN_eq (fieldN_eq_of_and_eq hm rfl) h
  case h_12 =>
    cases p with
    | absent => cases h
    | v0 | vx => exact ⟨_, rfl⟩
  case h_15 => exact exists_decodeE_of_fieldNN_eq (extractLsb'_eq_of_and_eq hm rfl) h
  case h_16 =>
    obtain rfl : f = 0xF := by simp only [imp_false] at *; omega
    exact exists_decodeF_of_fieldNN_eq (extractLsb'_eq_of_and_eq hm rfl) h
  all_goals exact ⟨_, rfl⟩

/-- A word is an instruction exactly when it matches a row (R64). -/
theorem exists_decode_iff_exists_row {p : JumpOffsetReg} {w : Word} :
    (∃ i, decode p w = .instr i) ↔ ∃ r ∈ opcodeRows p, r.matchesWord w = true := by
  constructor
  · rintro ⟨i, hi⟩
    obtain ⟨rfl, hwf⟩ := encode_of_decode hi
    exact ⟨_, rowOfWord_encode_mem hwf, rowOfWord_matchesWord _⟩
  · rintro ⟨r, hr, hw⟩
    obtain ⟨hmask, -, hne⟩ := opcodeRow_spec r hr
    obtain ⟨i, hi⟩ := (decode_cases p r.value).resolve_right hne
    exact exists_decode_of_and_formatMask_eq (fieldFamily_eq_of_matchesWord hr hw)
      (hmask ▸ and_mask_eq_of_matchesWord hw) hi

theorem decode_unknown_of_no_row {p : JumpOffsetReg} {w : Word} (h : ∀ r ∈ opcodeRows p, r.matchesWord w = false) :
    decode p w = .unknown w := by
  refine (decode_cases p w).resolve_left fun hi => ?_
  obtain ⟨r, hr, hw⟩ := exists_decode_iff_exists_row.mp hi
  exact Bool.false_ne_true ((h r hr).symm.trans hw)

theorem decode_absent_encodeAddr_B (nnn : Addr12) : decode .absent (encodeAddr 0xB nnn) = .unknown (encodeAddr 0xB nnn) := by
  simp [decode, decodeB]

end Sys2Proof

namespace Sys2Proof.Machine

/-- A running machine that can fetch runs the word at pc (R80). -/
theorem step_eq_runWord {s : State} (hs : s.status = .running) (hpc : s.pc.toNat + 1 < 4096) :
    step s = runWord s (s.wordAt s.pc.toNat) := by
  simp only [step, hs, fetch_eq, if_pos hpc, State.wordAt]

/-- An unknown word faults (R64). -/
theorem runWord_of_unknown {s : State} {w v : Word} (h : decode s.config.jumpOffsetReg w = .unknown v) :
    runWord s w = .fault (.unknownInstruction s.pc w) := by
  obtain rfl := eq_of_decode_unknown h
  simp only [runWord, h, raiseUnknown]

/-- Settles O3: a word can match only `rowOfWord`, so rows do not overlap; and the decoder and the table agree on which of these
rows exist. -/
theorem decodeMatchesExactlyTheTableRows : Obligations.DecodeMatchesExactlyTheTableRows := by
  refine ⟨fun p w => ⟨exists_decode_iff_exists_row, decode_unknown_of_no_row, ?_⟩, decode_absent_encodeAddr_B, ?_⟩
  · exact fun r hr r' hr' hw hw' =>
      (eq_rowOfWord_of_matchesWord hr hw).trans (eq_rowOfWord_of_matchesWord hr' hw').symm
  · exact fun s hs hpc hu => (step_eq_runWord hs hpc).trans (runWord_of_unknown hu)

end Sys2Proof.Machine
end

/-! SUPPORT. Control transfer (40_control.md R82 to R86): what a pop and a push do at a given stack depth, and what RET and CALL
answer on either side of their faults. -/

section
namespace Sys2Proof.Machine

/-- A known word is executed with pc advanced by 2 (R80). -/
theorem runWord_of_instr {s : State} {w : Word} {i : Instr} (h : decode s.config.jumpOffsetReg w = .instr i) :
    runWord s w = exec i (s.setPc (s.pc + 2)) := by
  simp only [runWord, h, State.advancePc]

/-- An address operand is extended by zeros (R62). -/
@[simp] theorem addrOperand_toNat (nnn : Addr12) : (addrOperand nnn).toNat = nnn.toNat :=
  BitVec.toNat_setWidth_of_le (by decide)

/-- A pop with j + 1 slots occupied answers slot j. -/
theorem State.pop_of_sp_eq {s : State} {j : Fin 16} (h : s.sp.val = j.val + 1) :
    ∃ t, s.pop = some (s.slot j, t) ∧ t.sp.val = j.val ∧ OnlyWrites s t (fun l => l = .sp) := by
  obtain ⟨w, t, hpop⟩ := State.pop_isSome (s := s) (by omega)
  obtain ⟨k, hk, rfl, hsp, hframe⟩ := State.pop_eq_some hpop
  obtain rfl : k = j := by omega
  exact ⟨t, hpop, hsp, hframe⟩

/-- A push with j slots occupied fills slot j. -/
theorem State.push_of_sp_eq {s : State} {j : Fin 16} (w : Word) (h : s.sp.val = j.val) :
    ∃ t, s.push w = some t ∧ t.slot j = w ∧ t.sp.val = j.val + 1 ∧
      OnlyWrites s t (fun l => l = .sp ∨ l = .slot j) := by
  obtain ⟨t, hpush⟩ := State.push_isSome w (h ▸ j.isLt)
  obtain ⟨k, hk, hslot, hsp, hframe⟩ := State.push_eq_some hpush
  obtain rfl : k = j := Fin.ext (hk.trans h)
  exact ⟨t, hpush, hslot, hk ▸ hsp, hframe⟩

/-! RET and CALL by what the stack answers. -/

theorem exec_ret_of_pop {s t : State} {w : Word} (h : s.pop = some (w, t)) : exec .ret s = .next (t.setPc w) := by
  simp only [exec, execRet, h]

theorem exec_ret_of_empty {s : State} (h : s.sp.val = 0) : exec .ret s = raise .ret s .stackUnderflow := by
  simp only [exec, execRet, State.pop_eq_none h]

theorem exec_call_of_push {s t : State} (nnn : Addr12) (h : s.push s.pc = some t) :
    exec (.call nnn) s = .next (t.setPc (addrOperand nnn)) := by
  simp only [exec, execCall, h]

theorem exec_call_of_full {s : State} (nnn : Addr12) (h : s.sp.val = 16) :
    exec (.call nnn) s = raise (.call nnn) s .stackOverflow := by
  simp only [exec, execCall, State.push_eq_none (s := s) s.pc (by omega)]

/-- Settles O24: a pop at depth j + 1 answers slot j, and the jump to it writes only pc. -/
theorem returnPopsTheStack : Obligations.ReturnPopsTheStack := by
  refine fun p s => ⟨Laws.RoundTrip.ret p rfl, fun j hj => ?_, exec_ret_of_empty⟩
  obtain ⟨t, hpop, hsp, hframe⟩ := State.pop_of_sp_eq hj
  exact ⟨t.setPc (s.slot j), exec_ret_of_pop hpop, rfl, hsp,
    (hframe.mono fun _ => .inr).trans (onlyWrites_setPc t _ (.inl rfl))⟩

/-- Settles O26: a push at depth j fills slot j with the advanced pc, and the jump writes only pc. -/
theorem callPushesTheReturnAddress : Obligations.CallPushesTheReturnAddress := by
  refine fun p nnn s => ⟨Laws.RoundTrip.call nnn p rfl, fun j hj => ?_, exec_call_of_full nnn⟩
  obtain ⟨t, hpush, hslot, hsp, hframe⟩ := State.push_of_sp_eq s.pc hj
  exact ⟨t.setPc (addrOperand nnn), exec_call_of_push nnn hpush, hslot, hsp, addrOperand_toNat nnn,
    (hframe.mono fun _ => .inr).trans (onlyWrites_setPc t _ (.inl rfl))⟩

/-- Settles O22: the word 0x0000 decodes to NOP, whose step is the sequencer's alone. -/
theorem nopChangesNothing : Obligations.NopChangesNothing := by
  refine fun p s => ⟨Laws.RoundTrip.nop p rfl, rfl, fun hs hpc hw => ?_⟩
  calc step s = runWord s 0x0000 := hw ▸ step_eq_runWord hs hpc
    _ = exec .nop (s.setPc (s.pc + 2)) := runWord_of_instr (Laws.RoundTrip.nop _ rfl)
    _ = .next (s.setPc (s.pc + 2)) := rfl

/-- Settles O23: CLS replaces the framebuffer by the blank one. -/
theorem clearScreenBlanksEveryCell : Obligations.ClearScreenBlanksEveryCell := fun p s =>
  ⟨Laws.RoundTrip.cls p rfl, s.setFb Framebuffer.blank, rfl, Framebuffer.cell_blank,
    onlyWrites_setFb s _ fun px py => ⟨px, py, rfl⟩⟩

/-- Settles O25: JP replaces pc by its address operand. -/
theorem jumpSetsPc : Obligations.JumpSetsPc := fun p nnn s =>
  ⟨Laws.RoundTrip.jp nnn p rfl, s.setPc (addrOperand nnn), rfl, addrOperand_toNat nnn, onlyWrites_setPc s _ rfl⟩

end Sys2Proof.Machine
end

/-! SUPPORT. Conditional skips (41_skip.md R100 to R104): what a form that answers a conditional skip does, and the low nibbles
that the 5 and 9 families leave out. -/

section
namespace Sys2Proof

theorem decodeLow0_of_fieldN_ne_zero {w : Word} (i : Instr) (h : fieldN w ≠ 0) : decodeLow0 w i = .unknown w := if_neg h

/-- The low nibble of 5XY0 and 9XY0 must be 0 (R103, R104). -/
theorem decode_encodeRegRegN_unknown (p : JumpOffsetReg) {h : BitVec 4} (x y : RegIdx) {k : Count} (hh : h = 0x5 ∨ h = 0x9)
    (hk : k ≠ 0) : decode p (encodeRegRegN h x y k) = .unknown (encodeRegRegN h x y k) := by
  have hn : fieldN (encodeRegRegN h x y k) ≠ 0 := by rwa [fieldN_encodeRegRegN]
  rw [decode, fieldFamily_encodeRegRegN]
  obtain rfl | rfl := hh <;> exact decodeLow0_of_fieldN_ne_zero _ hn

end Sys2Proof

namespace Sys2Proof.Machine

/-- A form that answers a skip under `c` advances pc by 2 more exactly if the condition `P` that `c` tests holds, and writes only
pc (R100). -/
theorem exec_of_skipIf {i : Instr} {s : State} {c : Bool} {P : Prop} [Decidable P] (he : exec i s = .next (s.skipIf c))
    (hc : c = true ↔ P) :
    ∃ t, exec i s = .next t ∧ t.pc = (if P then s.pc + 2 else s.pc) ∧ OnlyWrites s t (fun l => l = .pc) := by
  have hpc : (s.skipIf c).pc = if P then s.pc + 2 else s.pc := by simp only [State.skipIf_pc, hc]
  exact ⟨s.skipIf c, he, hpc, onlyWrites_skipIf s c rfl⟩

/-- Settles O29: both forms are skips, one under V[X] = NN and the other under its negation. -/
theorem immediateSkips : Obligations.ImmediateSkips := fun p x nn _ =>
  ⟨Laws.RoundTrip.seVxNn x nn p rfl, Laws.RoundTrip.sneVxNn x nn p rfl, exec_of_skipIf rfl beq_iff_eq,
    exec_of_skipIf rfl bne_iff_ne⟩

/-- Settles O30: both forms are skips, one under V[X] = V[Y] and the other under its negation; the decoder of their families
refuses every low nibble but 0. -/
theorem registerSkips : Obligations.RegisterSkips := fun p x y _ _ =>
  ⟨Laws.RoundTrip.seVxVy x y p rfl, Laws.RoundTrip.sneVxVy x y p rfl,
    fun hk => ⟨decode_encodeRegRegN_unknown p x y (.inl rfl) hk, decode_encodeRegRegN_unknown p x y (.inr rfl) hk⟩,
    exec_of_skipIf rfl beq_iff_eq, exec_of_skipIf rfl bne_iff_ne⟩

end Sys2Proof.Machine
end

/-! SUPPORT. Writes of one register (42_alu.md R115 to R117): what a form that answers such a write does, and the write of a
register's own value. -/

section
namespace Sys2Proof.Machine

/-- A form that answers a write of V[X] leaves the written byte there and writes nothing else. -/
theorem exec_of_setReg {i : Instr} {s : State} {x : RegIdx} {b : Byte} (he : exec i s = .next (s.setReg x b)) :
    ∃ t, exec i s = .next t ∧ t.reg x = b ∧ OnlyWrites s t (fun l => l = .reg x) :=
  ⟨s.setReg x b, he, State.reg_setReg_self s x b, onlyWrites_setReg s x b rfl⟩

@[simp] theorem State.setReg_reg_self (s : State) (x : RegIdx) : s.setReg x (s.reg x) = s := by
  simp only [State.setReg, State.reg, Vector.set_getElem_self]

/-- Settles O31: both forms are writes of V[X], and the sum of two bytes is the exact sum modulo 256. -/
theorem immediateLoadAndAdd : Obligations.ImmediateLoadAndAdd := by
  refine fun p x nn s =>
    ⟨Laws.RoundTrip.ldVxNn x nn p rfl, Laws.RoundTrip.addVxNn x nn p rfl, exec_of_setReg rfl, ?_⟩
  obtain ⟨t, he, hx, hframe⟩ := exec_of_setReg (i := .addVxNn x nn) (s := s) rfl
  exact ⟨t, he, hx ▸ BitVec.toNat_add (s.reg x) nn, hframe⟩

/-- Settles O32: the form is a write of V[X], and the write of V[X]'s own value changes nothing. -/
theorem assignCopiesTheRegister : Obligations.AssignCopiesTheRegister := by
  refine fun p x y s =>
    ⟨Laws.RoundTrip.ldVxVy x y p rfl, exec_of_setReg rfl, s, ?_, OnlyWrites.refl s _⟩
  calc exec (.ldVxVy x x) s = .next (s.setReg x (s.reg x)) := rfl
    _ = .next s := by rw [State.setReg_reg_self]

end Sys2Proof.Machine
end

/-! SUPPORT. Writes of the index register (43_index_random.md R130): what a form that answers such a write does. -/

section
namespace Sys2Proof.Machine

/-- A form that answers a write of I leaves the written word there, here by its value, and writes nothing else. -/
theorem exec_of_setIndex {i : Instr} {s : State} {w : Word} {n : Nat} (he : exec i s = .next (s.setIndex w))
    (hw : w.toNat = n) : ∃ t, exec i s = .next t ∧ t.index.toNat = n ∧ OnlyWrites s t (fun l => l = .index) :=
  ⟨s.setIndex w, he, hw, onlyWrites_setIndex s w rfl⟩

/-- Settles O37: the form is a write of I, and the word written is the address operand extended by zeros. -/
theorem loadIndexSetsI : Obligations.LoadIndexSetsI := fun p nnn _ =>
  ⟨Laws.RoundTrip.ldINnn nnn p rfl, exec_of_setIndex rfl (addrOperand_toNat nnn)⟩

end Sys2Proof.Machine
end

/-! SUPPORT. Sprite draw (44_display.md R141, R143): when a draw answers, the cells it leaves alone, and the cells under a one-row
sprite of eight 1 bits. -/

section
namespace Sys2Proof.Machine

/-- A draw answers if every sprite byte exists (R141). -/
theorem exec_drwVxVyN_isNext (x y : RegIdx) {n : Count} {s : State} (h : DataInBounds s n.val) :
    ∃ t, exec (.drwVxVyN x y n) s = .next t := by
  have hread : memReadRange s.mem s.dataBase n.val = .ok _ := (memReadRange_eq ..).trans (if_pos h)
  simp only [exec, execDrwVxVyN, hread]
  exact ⟨_, rfl⟩

/-- A draw leaves each cell that the sprite does not cover (R141). -/
theorem cell_of_exec_drwVxVyN_of_not_covers {x y : RegIdx} {n : Count} {s t : State} {px : Fin 64} {py : Fin 32}
    (h : exec (.drwVxVyN x y n) s = .next t) (hc : ¬ SpriteCovers s (s.reg x) (s.reg y) n.val px py) :
    t.cell px py = s.cell px py := by
  obtain ⟨rows, hrows, rfl⟩ := exec_drwVxVyN_eq_next h
  have hlen : rows.length ≤ 32 := by have := n.isLt; simp [hrows]; omega
  have hmem : (px, py) ∉ spritePoints (s.reg x).toNat (s.reg y).toNat 0 rows :=
    fun hm => hc ((mem_spritePoints_iff_spriteCovers ..).mp (hrows ▸ hm))
  calc _ = (s.drawSprite (s.reg x) (s.reg y) rows).fb.cell px py := rfl
    _ = s.cell px py := by rw [(s.drawSprite_spec _ _ rows hlen).1, if_neg hmem]

/-- Every bit of a sprite row 0xFF is 1 (R140). -/
theorem spriteBit_of_byteAt_eq_ones {s : State} {r c : Nat} (h : s.byteAt (s.dataBase + r) = 0xFF) (hc : c < 8) :
    spriteBit s r c = true := by
  rw [spriteBit, h, show (0xFF : Byte) = BitVec.allOnes 8 from rfl, BitVec.getLsbD_allOnes]
  exact decide_eq_true (by omega)

/-- A one-row sprite of eight 1 bits covers eight columns of its start row, which wrap (R141). -/
theorem spriteCovers_one_row_ones_iff {s : State} {x0 y0 : Byte} {px : Fin 64} {py : Fin 32}
    (h : s.byteAt s.dataBase = 0xFF) :
    SpriteCovers s x0 y0 1 px py ↔ py.val = y0.toNat % 32 ∧ ∃ c < 8, px.val = (x0.toNat + c) % 64 := by
  constructor
  · rintro ⟨r, c, hr, hc, hx, hy, -⟩
    obtain rfl : r = 0 := Nat.lt_one_iff.mp hr
    exact ⟨hy, c, hc, hx⟩
  · rintro ⟨hy, c, hc, hx⟩
    exact ⟨0, c, Nat.one_pos, hc, hx, hy, spriteBit_of_byteAt_eq_ones h hc⟩

/-- Eight columns from column 63 on are column 63 and, wrapped, columns 0 to 6 (R143). -/
theorem wrapped_column_from_63_iff (px : Fin 64) : (∃ c < 8, px.val = (63 + c) % 64) ↔ px = 63 ∨ px.val ≤ 6 := by
  constructor
  · rintro ⟨c, hc, hx⟩; omega
  · rintro (rfl | hx)
    · exact ⟨0, by omega, rfl⟩
    · exact ⟨px.val + 1, by omega, by omega⟩

/-- The cells under a one-row sprite of eight 1 bits at (63, 31) (R143). -/
theorem spriteCovers_corner_iff {s : State} {px : Fin 64} {py : Fin 32} (h : s.byteAt s.dataBase = 0xFF) :
    SpriteCovers s 63 31 1 px py ↔ py = 31 ∧ (px = 63 ∨ px.val ≤ 6) := by
  rw [spriteCovers_one_row_ones_iff h, ← wrapped_column_from_63_iff]
  exact and_congr_left' (Fin.ext_iff (a := py) (b := 31)).symm

/-- Settles O41: the draw turns over the cells that the sprite covers and no other, and these are the eight cells at the corner. -/
theorem drawWrapsAtTheCorner : Obligations.DrawWrapsAtTheCorner := by
  intro x y s hx hy hbound hbyte
  have hcovers (px : Fin 64) (py : Fin 32) :
      SpriteCovers s (s.reg x) (s.reg y) (1 : Count).val px py ↔ py = 31 ∧ (px = 63 ∨ px.val ≤ 6) :=
    hx ▸ hy ▸ spriteCovers_corner_iff hbyte
  obtain ⟨t, ht⟩ := exec_drwVxVyN_isNext x y (n := 1) (s := s) (.inr hbound)
  refine ⟨t, ht, fun px py => ?_⟩
  split
  case isTrue hin => exact cell_of_exec_drwVxVyN ht ((hcovers px py).mpr hin)
  case isFalse hout => exact cell_of_exec_drwVxVyN_of_not_covers ht (mt (hcovers px py).mp hout)

end Sys2Proof.Machine
end

/-! SUPPORT. Timers (46_f_family.md R160, R162, R163; 60_exceptions.md R189, R190): a run of ticks subtracts its length from ST
and stops at 0, so that it passes the value 1, which beeps, at most once. -/

section
namespace Sys2Proof.Machine

theorem State.beep_iff {s : State} : s.beep = true ↔ s.st.toNat = 1 := by
  rw [State.beep, beq_iff_eq, ← BitVec.toNat_inj]; rfl

theorem State.ticks_st_toNat (s : State) (k : Nat) : (s.ticks k).st.toNat = s.st.toNat - k := by
  induction k with
  | zero => rfl
  | succ k ih =>
    calc (s.ticks (k + 1)).st.toNat = (s.ticks k).st.toNat - 1 := countDown_toNat _
      _ = s.st.toNat - (k + 1) := by rw [ih, Nat.sub_sub]

/-- The tick after `k` others beeps exactly if ST held `k + 1` before them. -/
theorem State.beep_ticks_iff (s : State) (k : Nat) : (s.ticks k).beep = true ↔ k + 1 = s.st.toNat := by
  rw [State.beep_iff, State.ticks_st_toNat]; omega

/-- Settles O46: FX18 writes ST alone, and the ticks after it count the written value down past 1 once. -/
theorem soundTimerBeepsAtTheNthTick : Obligations.SoundTimerBeepsAtTheNthTick := fun p x s =>
  ⟨Laws.RoundTrip.ldStVx x p rfl, s.setSt (s.reg x), rfl, rfl, onlyWrites_setSt s _ rfl,
    (s.setSt (s.reg x)).beep_ticks_iff⟩

/-- Settles O44: each form is one write, of V[X] or of DT, and the next tick counts the new DT down. -/
theorem delayTimerReadAndSet : Obligations.DelayTimerReadAndSet := fun p x s =>
  ⟨Laws.RoundTrip.ldVxDt x p rfl, Laws.RoundTrip.ldDtVx x p rfl, exec_of_setReg rfl,
    s.setDt (s.reg x), rfl, rfl, onlyWrites_setDt s _ rfl, countDown_toNat (s.reg x)⟩

end Sys2Proof.Machine
end

/-! SUPPORT. Key wait (46_f_family.md R161): with no key pressed FX0A takes back the sequencer's advance of pc. -/

section
namespace Sys2Proof.Machine

theorem exec_ldVxK_of_no_key {s : State} (x : RegIdx) (h : ∀ k, s.key k = false) :
    exec (.ldVxK x) s = .next s.rewindPc := by
  simp only [exec, execLdVxK, s.firstPressed_eq_none.mpr h]

theorem onlyWrites_rewindPc (s : State) {W : Loc → Prop} (h : W .pc) : OnlyWrites s s.rewindPc W :=
  onlyWrites_setPc s _ h

/-- pc forward by 2 and back by 2 is pc, also where the sum wraps (R161). -/
theorem State.rewindPc_setPc_add_two (s : State) : (s.setPc (s.pc + 2)).rewindPc = s := by
  simp only [State.rewindPc, State.setPc, BitVec.add_sub_cancel]

/-- Settles O45: the scan finds the lowest pressed key, which is written to V[X]; if it finds none, pc goes back by 2, which in a
step undoes the advance. -/
theorem keyWaitTakesTheLowestKey : Obligations.KeyWaitTakesTheLowestKey := by
  refine fun p x s => ⟨Laws.RoundTrip.ldVxK x p rfl, fun k hk hlow => ?_, fun hno => ?_, fun hs hpc hw hno => ?_⟩
  · obtain ⟨t, he, hx, hframe⟩ := exec_of_setReg (exec_ldVxK_of_lowest x hk hlow)
    have hbyte : (BitVec.ofNat 8 k.val).toNat = k.val := (BitVec.toNat_ofNat ..).trans (Nat.mod_eq_of_lt (by omega))
    exact ⟨t, he, hx ▸ hbyte, hframe⟩
  · exact ⟨s.rewindPc, exec_ldVxK_of_no_key x hno, rfl, onlyWrites_rewindPc s rfl⟩
  · calc step s = runWord s (encode (.ldVxK x)) := (step_eq_runWord hs hpc).trans (congrArg (runWord s) hw)
      _ = exec (.ldVxK x) (s.setPc (s.pc + 2)) := runWord_of_instr (Laws.RoundTrip.ldVxK x _ rfl)
      _ = .next (s.setPc (s.pc + 2)).rewindPc := exec_ldVxK_of_no_key x hno
      _ = .next s := by rw [State.rewindPc_setPc_add_two]

end Sys2Proof.Machine
end

/-! SUPPORT. The address of a glyph (46_f_family.md R164). -/

section
namespace Sys2Proof.Machine

theorem glyphAddress_toNat (b : Byte) : (glyphAddress b).toNat = b.toNat % 16 * 5 := by
  have hnibble : (b &&& 0x0F).toNat = b.toNat % 16 := Nat.and_two_pow_sub_one_eq_mod b.toNat 4
  rw [glyphAddress, hnibble]
  exact (BitVec.toNat_ofNat ..).trans (Nat.mod_eq_of_lt (by omega))

/-- Settles O47: the form is a write of I, and the word written is the glyph's address. -/
theorem fontAddressOfTheLowNibble : Obligations.FontAddressOfTheLowNibble := fun p x s =>
  ⟨Laws.RoundTrip.ldFVx x p rfl, exec_of_setIndex rfl (glyphAddress_toNat (s.reg x))⟩

end Sys2Proof.Machine
end

/-! SUPPORT. Stores at I (46_f_family.md R165; 20_memory.md R42, R43): what a list of bytes written from the data address on leaves
in memory, and the digits that FX33 writes there. -/

section
namespace Sys2Proof.Machine

/-- The state after the bytes `bs` are written from I on. -/
def State.storeData (s : State) (bs : List Byte) : State := s.setMem (s.mem.writeList s.dataBase bs)

theorem State.byteAt_storeData (s : State) {bs : List Byte} {k : Nat} (hk : k < bs.length) :
    (s.storeData bs).byteAt (s.index.toNat + k) = bs[k] := by
  have hin : s.dataBase ≤ s.index.toNat + k ∧ s.index.toNat + k < s.dataBase + bs.length := by
    rw [State.dataBase]; omega
  calc (s.storeData bs).byteAt (s.index.toNat + k)
      = (s.mem.writeList s.dataBase bs).read (s.index.toNat + k) := rfl
    _ = bs.getD (s.index.toNat + k - s.dataBase) 0 := by rw [Memory.read_writeList, if_pos hin]
    _ = bs[k] := by
      rw [State.dataBase, Nat.add_sub_cancel_left, List.getD_eq_getElem?_getD, List.getElem?_eq_getElem hk, Option.getD_some]

/-- A store at I writes the bytes of its range and nothing else. -/
theorem onlyWrites_storeData (s : State) (bs : List Byte) :
    OnlyWrites s (s.storeData bs) (fun l => ∃ a, InData s bs.length a ∧ l = .byte a) := by
  refine onlyWrites_setMem s _ fun a => ?_
  by_cases hin : InData s bs.length a
  · exact .inr ⟨a, hin, rfl⟩
  · exact .inl ((Memory.read_writeList ..).trans (if_neg hin))

/-! FX33 by whether its three bytes exist. -/

theorem exec_ldBVx_of_inBounds {s : State} (x : RegIdx) (h : DataInBounds s 3) :
    exec (.ldBVx x) s = .next (s.storeData (bcdDigits (s.reg x))) := by
  have hwrite : memWriteRange s.mem s.dataBase (bcdDigits (s.reg x)) = .ok _ := (memWriteRange_eq ..).trans (if_pos h)
  simp only [exec, execLdBVx, hwrite, State.storeData]

theorem exec_ldBVx_of_outOfBounds {s : State} (x : RegIdx) (h : ¬ DataInBounds s 3) :
    exec (.ldBVx x) s = raiseOutOfBounds (.ldBVx x) s (max s.dataBase 4096) := by
  have hwrite : memWriteRange s.mem s.dataBase (bcdDigits (s.reg x)) = .error _ := (memWriteRange_eq ..).trans (if_neg h)
  simp only [exec, execLdBVx, hwrite]

/-- A number up to a byte's value is a byte. -/
theorem byteOfNat_toNat_of_le {b : Byte} {n : Nat} (h : n ≤ b.toNat) : (BitVec.ofNat 8 n).toNat = n :=
  (BitVec.toNat_ofNat ..).trans (Nat.mod_eq_of_lt (Nat.lt_of_le_of_lt h b.isLt))

/-- Settles O48: the three bytes that FX33 stores at I are the digits, each no more than V[X]; they exist or the write range
answers its lowest address out of bounds. -/
theorem bcdWritesThreeDigits : Obligations.BcdWritesThreeDigits := by
  refine fun p x s => ⟨Laws.RoundTrip.ldBVx x p rfl, fun hin => ?_, fun hout => ?_⟩
  · have hb : DataInBounds s 3 := .inr hin
    have hdigit (k : Nat) (hk : k < 3) := congrArg BitVec.toNat (s.byteAt_storeData (bs := bcdDigits (s.reg x)) hk)
    refine ⟨_, exec_ldBVx_of_inBounds x hb, ?_, ?_, ?_, onlyWrites_storeData s _⟩
    · exact (hdigit 0 (by decide)).trans (byteOfNat_toNat_of_le (Nat.div_le_self ..))
    · exact (hdigit 1 (by decide)).trans
        (byteOfNat_toNat_of_le (Nat.le_trans (Nat.mod_le ..) (Nat.div_le_self (s.reg x).toNat 10)))
    · exact (hdigit 2 (by decide)).trans (byteOfNat_toNat_of_le (Nat.mod_le ..))
  · exact exec_ldBVx_of_outOfBounds x fun hb => by simp only [DataInBounds, State.dataBase] at hb; omega

end Sys2Proof.Machine
end

/-! SUPPORT. The host's tick and framebuffer read (60_exceptions.md R183, R189, R190, R200): the admission of an operation by status,
the frame of a tick and its beep. -/

section
namespace Sys2Proof.Machine

/-- After a fault no operation is admitted (R183). -/
theorem hostCall_of_faulted {s : State} {f : Fault} (op : HostOp) (h : s.status = .faulted f) :
    hostCall op s = .error .notAdmitted := by
  simp only [hostCall, h]

/-- A tick is two writes, of DT and of ST (R189). -/
theorem onlyWrites_tick (s : State) : OnlyWrites s s.tick (fun l => l = .dt ∨ l = .st) :=
  (onlyWrites_setDt s (countDown s.dt) (.inl rfl)).trans (onlyWrites_setSt _ (countDown s.st) (.inr rfl))

theorem State.tick_dt (s : State) : s.tick.dt = countDown s.dt := rfl

theorem State.tick_st (s : State) : s.tick.st = countDown s.st := rfl

theorem State.beep_eq_decide (s : State) : s.beep = decide (s.st = 1) :=
  Bool.eq_iff_iff.mpr (beq_iff_eq.trans decide_eq_true_iff.symm)

/-- Settles O58: the operation is admitted and answers the state's own cells, whose number and order are the framebuffer's. -/
theorem readFramebufferIsRowMajor : Obligations.ReadFramebufferIsRowMajor := fun s hs =>
  ⟨s.fb.cells, hostCall_of_running .readFramebuffer hs, s.fb.cells_length, s.fb.cells_getElem?⟩

/-- Settles O54: on a running core the operation is the tick, with its frame and its beep; on a faulted core none is admitted. -/
theorem tickCountsBothTimersDown : Obligations.TickCountsBothTimersDown := by
  refine ⟨fun s hs => ⟨s.tick, ?_, s.tick_dt, s.tick_st, onlyWrites_tick s⟩, fun s f hf => hostCall_of_faulted _ hf⟩
  calc hostCall .advanceTimers s = .ok (s.tick, .beep s.beep) := hostCall_of_running .advanceTimers hs
    _ = .ok (s.tick, .beep (decide (s.st = 1))) := by rw [State.beep_eq_decide]

end Sys2Proof.Machine
end

/-! SUPPORT. Memory after initialize (70_reset_and_hazards.md R230), and what a host's reset leaves of the machine (R231). -/

section
namespace Sys2Proof.Machine

/-- Past the end of a list of bytes its default is read. -/
theorem getD_zero_of_length_le {bs : List Byte} {a : Nat} (h : bs.length ≤ a) : bs.getD a 0 = 0 := by
  rw [List.getD_eq_getElem?_getD, List.getElem?_eq_none h, Option.getD_none]

/-- An address that the default font does not cover reads as 0 while no cell lists it (R50). -/
theorem background_of_ge {a : Nat} (h : 80 ≤ a) : background a = 0 := getD_zero_of_length_le h

theorem font_getD_of_ge (font : Vector Byte 80) {a : Nat} (h : 80 ≤ a) : font.toList.getD a 0 = 0 :=
  getD_zero_of_length_le (font.length_toList.symm ▸ h)

/-- Memory after initialize is the font from address 0 on, and 0 past its end (R230). -/
theorem read_initialMem (font : Vector Byte 80) (a : Nat) : (initialMem font).read a = font.toList.getD a 0 := by
  rw [initialMem, Memory.read_writeList, Vector.length_toList, Nat.sub_zero]
  split
  · rfl
  · have ha : 80 ≤ a := by omega
    calc background a = 0 := background_of_ge ha
      _ = font.toList.getD a 0 := (font_getD_of_ge font ha).symm

theorem State.initial_byteAt_font (c : Config) (a : Fin 80) : (State.initial c).byteAt a.val = c.font[a.val] := by
  have ha : a.val < c.font.toList.length := c.font.length_toList.symm ▸ a.isLt
  calc (State.initial c).byteAt a.val = c.font.toList.getD a.val 0 := read_initialMem ..
    _ = c.font.toList[a.val] := by rw [List.getD_eq_getElem?_getD, List.getElem?_eq_getElem ha, Option.getD_some]
    _ = c.font[a.val] := Vector.getElem_toList ha

theorem State.initial_byteAt_of_ge (c : Config) {a : Nat} (h : 80 ≤ a) : (State.initial c).byteAt a = 0 :=
  (read_initialMem ..).trans (font_getD_of_ge c.font h)

theorem State.initial_reg (c : Config) (j : RegIdx) : (State.initial c).reg j = 0 := Vector.getElem_replicate _

theorem initialMem_wf (font : Vector Byte 80) : (initialMem font).wf :=
  Memory.writeList_wf _ Memory.wf_nil (by rw [Vector.length_toList]; omega)

/-- The default font is what unlisted cells read as, so that writing it lists no cell (log 21). -/
theorem initialMem_defaultFont : initialMem defaultConfig.font = [] :=
  Memory.ext_of_wf (initialMem_wf _) Memory.wf_nil (read_initialMem _)

/-- Settles O17: the memory clauses are the reads of `initialMem`, and the canonical form makes the default memory the empty list
of `State.reset`. -/
theorem initializeGivesTheResetState : Obligations.InitializeGivesTheResetState := by
  refine ⟨fun c => ⟨State.initial_reg c, rfl, rfl, State.initial_slot c, rfl, State.initial_byteAt_font c,
    fun a h _ => State.initial_byteAt_of_ge c h, State.initial_cell c, State.initial_key c, rfl, rfl, rfl⟩, ?_⟩
  rw [State.initial, initialMem_defaultFont]
  rfl

/-- A reset machine is the initialized one but for the count of draws (R231, log 9). -/
theorem onlyWrites_hostReset (s : State) : OnlyWrites (State.initial s.config) s.hostReset (fun l => l = .draws) := by
  intro l hl
  cases l with
  | draws => exact absurd rfl hl
  | _ => rfl

/-- Settles O55: a running core admits the operation, whose answer is the reset machine. -/
theorem resetRestoresTheInitialState : Obligations.ResetRestoresTheInitialState := fun s hs =>
  ⟨s.hostReset, hostCall_of_running .reset hs, onlyWrites_hostReset s⟩

end Sys2Proof.Machine
end

/-! SUPPORT. Encoding (30_encoding.md sections 2 to 4): decode and encode are inverse to each other, instruction by instruction. -/

section
namespace Sys2Proof

/-- Decode undoes encode for every instruction that exists (R63, R64): the per-instruction family RoundTrip, put together. -/
theorem decode_encode {p : JumpOffsetReg} {i : Instr} (h : i.wf p = true) : decode p (encode i) = .instr i := by
  cases i with
  | nop => exact Laws.RoundTrip.nop p h
  | cls => exact Laws.RoundTrip.cls p h
  | ret => exact Laws.RoundTrip.ret p h
  | jp => exact Laws.RoundTrip.jp _ p h
  | call => exact Laws.RoundTrip.call _ p h
  | seVxNn => exact Laws.RoundTrip.seVxNn _ _ p h
  | sneVxNn => exact Laws.RoundTrip.sneVxNn _ _ p h
  | seVxVy => exact Laws.RoundTrip.seVxVy _ _ p h
  | ldVxNn => exact Laws.RoundTrip.ldVxNn _ _ p h
  | addVxNn => exact Laws.RoundTrip.addVxNn _ _ p h
  | ldVxVy => exact Laws.RoundTrip.ldVxVy _ _ p h
  | orVxVy => exact Laws.RoundTrip.orVxVy _ _ p h
  | andVxVy => exact Laws.RoundTrip.andVxVy _ _ p h
  | xorVxVy => exact Laws.RoundTrip.xorVxVy _ _ p h
  | addVxVy => exact Laws.RoundTrip.addVxVy _ _ p h
  | subVxVy => exact Laws.RoundTrip.subVxVy _ _ p h
  | shrVxVy => exact Laws.RoundTrip.shrVxVy _ _ p h
  | subnVxVy => exact Laws.RoundTrip.subnVxVy _ _ p h
  | shlVxVy => exact Laws.RoundTrip.shlVxVy _ _ p h
  | sneVxVy => exact Laws.RoundTrip.sneVxVy _ _ p h
  | ldINnn => exact Laws.RoundTrip.ldINnn _ p h
  | jpV0Nnn => exact Laws.RoundTrip.jpV0Nnn _ p h
  | rndVxNn => exact Laws.RoundTrip.rndVxNn _ _ p h
  | drwVxVyN => exact Laws.RoundTrip.drwVxVyN _ _ _ p h
  | skpVx => exact Laws.RoundTrip.skpVx _ p h
  | sknpVx => exact Laws.RoundTrip.sknpVx _ p h
  | ldVxDt => exact Laws.RoundTrip.ldVxDt _ p h
  | ldVxK => exact Laws.RoundTrip.ldVxK _ p h
  | ldDtVx => exact Laws.RoundTrip.ldDtVx _ p h
  | ldStVx => exact Laws.RoundTrip.ldStVx _ p h
  | addIVx => exact Laws.RoundTrip.addIVx _ p h
  | ldFVx => exact Laws.RoundTrip.ldFVx _ p h
  | ldBVx => exact Laws.RoundTrip.ldBVx _ p h
  | ldMemVx => exact Laws.RoundTrip.ldMemVx _ p h
  | ldVxMem => exact Laws.RoundTrip.ldVxMem _ p h

/-- Settles O1, by cases on the instruction. -/
theorem decodeOfEncodeIsTheInstruction : Obligations.DecodeOfEncodeIsTheInstruction := fun _ _ => decode_encode

/-- Settles O2, by cases on the families of the decoder. -/
theorem encodeOfDecodeIsTheWord : Obligations.EncodeOfDecodeIsTheWord := fun _ _ _ => encode_of_decode

/-- Settles O4, by running the decoder on the written words. -/
theorem sampleWordsDecode : Obligations.SampleWordsDecode := by
  unfold Obligations.SampleWordsDecode
  decide

end Sys2Proof
end

/-! SUPPORT. The sequencer (40_control.md R80) and its fetch (20_memory.md R44, R45): what a step does by status, by whether pc and
pc + 1 exist, and by the word that is there; and what a faulting step leaves (60_exceptions.md R181 to R183). -/

section
namespace Sys2Proof.Machine

/-- A fetch below the end of memory reads the two bytes at pc (R44). -/
theorem fetch_of_inBounds {s : State} (h : s.pc.toNat + 1 < 4096) : fetch s = .ok (s.wordAt s.pc.toNat) :=
  (fetch_eq s).trans (if_pos h)

/-- A fetch past the end of memory reports the first address that does not exist (R45). -/
theorem fetch_of_outOfBounds {s : State} (h : ¬ s.pc.toNat + 1 < 4096) : fetch s = .error (max s.pc.toNat 4096) :=
  (fetch_eq s).trans (if_neg h)

/-- Settles O6: the two sides of the fetch bound, the failing one split by which of the two addresses is the first to fail. -/
theorem fetchReadsBigEndianOrFaults : Obligations.FetchReadsBigEndianOrFaults := by
  refine fun s => ⟨fun h => fetch_of_inBounds (by omega), fun h => ?_, fun h => ?_⟩
  · exact (fetch_of_outOfBounds (by omega)).trans (congrArg _ (Nat.max_eq_right (by omega)))
  · exact (fetch_of_outOfBounds (by omega)).trans (congrArg _ (Nat.max_eq_left h))

/-- A running machine that cannot fetch faults before pc advances, with no word (R45, R181). -/
theorem step_of_outOfBounds {s : State} (hs : s.status = .running) (hpc : ¬ s.pc.toNat + 1 < 4096) :
    step s = .fault (.outOfBounds s.pc none (max s.pc.toNat 4096)) := by
  simp only [step, hs, fetch_of_outOfBounds hpc, raiseFetch]

/-- A step of a faulted machine is refused (R183). -/
theorem step_of_faulted {s : State} {f : Fault} (hs : s.status = .faulted f) : step s = .refused .notAdmitted := by
  simp only [step, hs]

theorem running_of_step_fault {s : State} {f : Fault} (h : step s = .fault f) : s.status = .running := by
  cases hs : s.status with
  | running => rfl
  | faulted g => cases (step_of_faulted hs).symm.trans h

/-- The host sees the record of a faulting step, and the state as before it but for status (R181 to R183). -/
theorem hostCall_step_of_fault {s : State} {f : Fault} (h : step s = .fault f) :
    hostCall .step s = .ok (s.enterFaulted f, .fault f) := by
  calc hostCall .step s = s.hostStep := hostCall_of_running .step (running_of_step_fault h)
    _ = .ok (s.enterFaulted f, .fault f) := by simp only [State.hostStep, h]

/-- Settles O5: the cases of a step, by status, by the fetch bound and by what the fetched word decodes to. -/
theorem stepRunsTheDecodedInstruction : Obligations.StepRunsTheDecodedInstruction := by
  refine fun s => ⟨fun hs hpc => ⟨fun i hi => ?_, fun w hw => ?_⟩, fun hs hpc => ⟨_, step_of_outOfBounds hs hpc⟩,
    fun f hf => step_of_faulted hf, fun f _ hf => hostCall_step_of_fault hf⟩
  · exact (step_eq_runWord hs hpc).trans (runWord_of_instr hi)
  · exact (step_eq_runWord hs hpc).trans (runWord_of_unknown hw)

theorem onlyWrites_enterFaulted (s : State) (f : Fault) : OnlyWrites s (s.enterFaulted f) (fun l => l = .status) := by
  intro l hl
  cases l with
  | status => exact absurd rfl hl
  | _ => rfl

/-- A host's step that answers a record is a faulting step (R181 to R183). -/
theorem step_of_hostStep_fault {s t : State} {f : Fault} (h : s.hostStep = .ok (t, .fault f)) :
    step s = .fault f ∧ t = s.enterFaulted f := by
  unfold State.hostStep at h
  split at h <;> cases h
  exact ⟨‹_›, rfl⟩

/-- Settles O7: the host's step answers `enterFaulted`, and a faulted machine admits nothing. -/
theorem faultsArePreciseAndTerminal : Obligations.FaultsArePreciseAndTerminal := by
  refine ⟨fun s t f h => ?_, fun s f hf op => hostCall_of_faulted op hf⟩
  obtain ⟨hstep, rfl⟩ := step_of_hostStep_fault (admitted_of_hostCall h).2
  exact ⟨hstep, s.enterFaulted_status f, onlyWrites_enterFaulted s f,
    fun op => hostCall_of_faulted op (s.enterFaulted_status f)⟩

end Sys2Proof.Machine
end

/-! SUPPORT. The forms that can fault, on either side of their conditions (60_exceptions.md R180), and FX0A by what its scan finds
(46_f_family.md R161). -/

section
namespace Sys2Proof.Machine

/-! BNNN by JUMP_OFFSET_REG (40_control.md R87). -/

theorem State.jumpOffset_of_v0 {s : State} (nnn : Addr12) (h : s.config.jumpOffsetReg = .v0) :
    s.jumpOffset nnn = some (s.reg 0) := by
  simp only [State.jumpOffset, h]

theorem State.jumpOffset_of_vx {s : State} (nnn : Addr12) (h : s.config.jumpOffsetReg = .vx) :
    s.jumpOffset nnn = some (s.reg (jumpX nnn)) := by
  simp only [State.jumpOffset, h]

theorem State.jumpOffset_isSome {s : State} (nnn : Addr12) (h : s.config.jumpOffsetReg ≠ .absent) :
    ∃ r, s.jumpOffset nnn = some r := by
  cases hp : s.config.jumpOffsetReg with
  | v0 => exact ⟨_, State.jumpOffset_of_v0 nnn hp⟩
  | vx => exact ⟨_, State.jumpOffset_of_vx nnn hp⟩
  | absent => exact absurd hp h

theorem exec_jpV0Nnn_of_offset {s : State} {nnn : Addr12} {r : Byte} (h : s.jumpOffset nnn = some r) :
    exec (.jpV0Nnn nnn) s = .next (s.setPc (jumpTarget nnn r)) := by
  simp only [exec, execJpV0Nnn, h]

theorem exec_jpV0Nnn_of_absent {s : State} (nnn : Addr12) (h : s.config.jumpOffsetReg = .absent) :
    exec (.jpV0Nnn nnn) s = raise (.jpV0Nnn nnn) s .unknownInstruction := by
  simp only [exec, execJpV0Nnn, State.jumpOffset, h]

/-! FX0A. -/

theorem exec_ldVxK_of_pressed {s : State} (x : RegIdx) {k : Nat} (h : s.firstPressed = some k) :
    exec (.ldVxK x) s = .next (s.setReg x (BitVec.ofNat 8 k)) := by
  simp only [exec, execLdVxK, h]

theorem exec_ldVxK_of_none {s : State} (x : RegIdx) (h : s.firstPressed = none) :
    exec (.ldVxK x) s = .next s.rewindPc := by
  simp only [exec, execLdVxK, h]

/-! The forms that access memory at I, by whether their range exists (R141, R166, R167). -/

theorem exec_drwVxVyN_of_outOfBounds {s : State} (x y : RegIdx) {n : Count} (h : ¬ DataInBounds s n.val) :
    exec (.drwVxVyN x y n) s = raiseOutOfBounds (.drwVxVyN x y n) s (max s.dataBase 4096) := by
  have hread : memReadRange s.mem s.dataBase n.val = .error _ := (memReadRange_eq ..).trans (if_neg h)
  simp only [exec, execDrwVxVyN, hread]

/-- The range that FX55 writes is as long as the list of its registers. -/
theorem dataInBounds_regsUpTo_iff {s : State} {x : RegIdx} :
    DataInBounds s (s.regsUpTo x).length ↔ DataInBounds s (x.val + 1) := by
  rw [State.regsUpTo_length]

theorem exec_ldMemVx_of_inBounds {s : State} {x : RegIdx} (h : DataInBounds s (x.val + 1)) :
    exec (.ldMemVx x) s = .next ((s.storeData (s.regsUpTo x)).setIndex (s.bulkIndex x)) := by
  have hwrite : memWriteRange s.mem s.dataBase (s.regsUpTo x) = .ok _ :=
    (memWriteRange_eq ..).trans (if_pos (dataInBounds_regsUpTo_iff.mpr h))
  simp only [exec, execLdMemVx, hwrite, State.storeData]

theorem exec_ldMemVx_of_outOfBounds {s : State} {x : RegIdx} (h : ¬ DataInBounds s (x.val + 1)) :
    exec (.ldMemVx x) s = raiseOutOfBounds (.ldMemVx x) s (max s.dataBase 4096) := by
  have hwrite : memWriteRange s.mem s.dataBase (s.regsUpTo x) = .error _ :=
    (memWriteRange_eq ..).trans (if_neg (mt dataInBounds_regsUpTo_iff.mp h))
  simp only [exec, execLdMemVx, hwrite]

/-- The `n` bytes from I on, lowest first. -/
def State.dataBytes (s : State) (n : Nat) : List Byte := (List.range n).map fun k => s.byteAt (s.dataBase + k)

/-- The state after the bytes from I on are copied to V[0]..V[x]. -/
def State.loadData (s : State) (x : RegIdx) : State := s.setRegs (setRegRange s.v 0 (s.dataBytes (x.val + 1)))

theorem exec_ldVxMem_of_inBounds {s : State} {x : RegIdx} (h : DataInBounds s (x.val + 1)) :
    exec (.ldVxMem x) s = .next ((s.loadData x).setIndex (s.bulkIndex x)) := by
  have hread : memReadRange s.mem s.dataBase (x.val + 1) = .ok (s.dataBytes (x.val + 1)) :=
    (memReadRange_eq ..).trans (if_pos h)
  simp only [exec, execLdVxMem, hread, State.loadData]

theorem exec_ldVxMem_of_outOfBounds {s : State} {x : RegIdx} (h : ¬ DataInBounds s (x.val + 1)) :
    exec (.ldVxMem x) s = raiseOutOfBounds (.ldVxMem x) s (max s.dataBase 4096) := by
  have hread : memReadRange s.mem s.dataBase (x.val + 1) = .error _ := (memReadRange_eq ..).trans (if_neg h)
  simp only [exec, execLdVxMem, hread]

end Sys2Proof.Machine
end

/-! SUPPORT. Faults (60_exceptions.md R180, R181): which instructions raise which fault under which condition, and what a step's
record says. -/

section
namespace Sys2Proof.Machine

/-- Under its condition an instruction raises its one fault. -/
theorem exec_of_faultCondition {i : Instr} {s : State} (h : FaultCondition s i) :
    ∃ f, exec i s = .fault f ∧ IsFaultOf i s f := by
  cases i with
  | ret => exact ⟨_, exec_ret_of_empty h, rfl⟩
  | call => exact ⟨_, exec_call_of_full _ h, rfl⟩
  | jpV0Nnn => exact ⟨_, exec_jpV0Nnn_of_absent _ h, rfl⟩
  | drwVxVyN => exact ⟨_, exec_drwVxVyN_of_outOfBounds _ _ h, rfl⟩
  | skpVx => exact ⟨_, exec_skpVx_of_badKey h, rfl⟩
  | sknpVx => exact ⟨_, exec_sknpVx_of_badKey h, rfl⟩
  | ldBVx => exact ⟨_, exec_ldBVx_of_outOfBounds _ h, rfl⟩
  | ldMemVx => exact ⟨_, exec_ldMemVx_of_outOfBounds h, rfl⟩
  | ldVxMem => exact ⟨_, exec_ldVxMem_of_outOfBounds h, rfl⟩
  | _ => exact False.elim h

/-- Outside its condition an instruction completes. -/
theorem exec_of_not_faultCondition {i : Instr} {s : State} (h : ¬ FaultCondition s i) : ∃ t, exec i s = .next t := by
  cases i with
  | ret =>
    obtain ⟨_, _, hpop⟩ := State.pop_isSome h
    exact ⟨_, exec_ret_of_pop hpop⟩
  | call nnn =>
    have hsp : s.sp.val ≠ 16 := h
    obtain ⟨_, hpush⟩ := State.push_isSome (s := s) s.pc (by omega)
    exact ⟨_, exec_call_of_push nnn hpush⟩
  | jpV0Nnn nnn =>
    obtain ⟨_, hr⟩ := State.jumpOffset_isSome nnn h
    exact ⟨_, exec_jpV0Nnn_of_offset hr⟩
  | drwVxVyN x y n => exact exec_drwVxVyN_isNext x y (Classical.not_not.mp h)
  | skpVx x =>
    obtain ⟨_, hk⟩ := (s.reg_key_or_bad x).resolve_right h
    exact ⟨_, exec_skpVx_of_key hk⟩
  | sknpVx x =>
    obtain ⟨_, hk⟩ := (s.reg_key_or_bad x).resolve_right h
    exact ⟨_, exec_sknpVx_of_key hk⟩
  | ldVxK x =>
    cases hk : s.firstPressed with
    | some k => exact ⟨_, exec_ldVxK_of_pressed x hk⟩
    | none => exact ⟨_, exec_ldVxK_of_none x hk⟩
  | ldBVx x => exact ⟨_, exec_ldBVx_of_inBounds x (Classical.not_not.mp h)⟩
  | ldMemVx => exact ⟨_, exec_ldMemVx_of_inBounds (Classical.not_not.mp h)⟩
  | ldVxMem => exact ⟨_, exec_ldVxMem_of_inBounds (Classical.not_not.mp h)⟩
  | _ => exact ⟨_, rfl⟩

/-- Settles O8, by cases on the instruction: the equations of each faulting form on either side of its condition. -/
theorem instructionsFaultExactlyWhenListed : Obligations.InstructionsFaultExactlyWhenListed := fun _ _ =>
  ⟨exec_of_faultCondition, exec_of_not_faultCondition⟩

theorem not_faultCondition_of_exec {i : Instr} {s t : State} (h : exec i s = .next t) : ¬ FaultCondition s i := by
  intro hc
  obtain ⟨f, hf, -⟩ := exec_of_faultCondition hc
  cases hf.symm.trans h

theorem isFaultOf_of_exec {i : Instr} {s : State} {f : Fault} (h : exec i s = .fault f) :
    FaultCondition s i ∧ IsFaultOf i s f := by
  by_cases hc : FaultCondition s i
  · obtain ⟨g, hg, hfault⟩ := exec_of_faultCondition hc
    exact ⟨hc, Host.Outcome.fault.inj (hg.symm.trans h) ▸ hfault⟩
  · obtain ⟨t, ht⟩ := exec_of_not_faultCondition hc
    cases ht.symm.trans h

/-! The record (R181). -/

/-- The info of a record is in its kind's range: an address that does not exist, a byte that names no key (R180). -/
def Fault.InfoInRange (f : Fault) : Prop :=
  (f.code = 1 → ∃ a, f.info = some a ∧ 4096 ≤ a) ∧ (f.code = 5 → ∃ k, f.info = some k ∧ 16 ≤ k ∧ k ≤ 255)

theorem Fault.code_bounds (f : Fault) : 1 ≤ f.code ∧ f.code ≤ 5 := by
  cases f <;> simp [Fault.code]

theorem infoInRange_outOfBounds (pc : Word) (w : Option Word) (base : Nat) :
    (Fault.outOfBounds pc w (max base 4096)).InfoInRange :=
  ⟨fun _ => ⟨_, rfl, Nat.le_max_right ..⟩, nofun⟩

theorem infoInRange_badKeyIndex (pc w : Word) {key : Byte} (h : 16 ≤ key.toNat) :
    (Fault.badKeyIndex pc w key).InfoInRange :=
  ⟨nofun, fun _ => ⟨_, rfl, h, Nat.le_of_lt_succ key.isLt⟩⟩

/-- The record of an instruction's own fault names its fetch address and its word (log 11). -/
theorem record_of_isFaultOf {i : Instr} {s : State} {f : Fault} (hc : FaultCondition s i) (hf : IsFaultOf i s f) :
    f.fetchAddr = s.fetchAddr ∧ f.fetchedWord = some (encode i) ∧ f.InfoInRange := by
  cases i with
  | ret | call | jpV0Nnn => cases hf; exact ⟨rfl, rfl, nofun, nofun⟩
  | skpVx | sknpVx => cases hf; exact ⟨rfl, rfl, infoInRange_badKeyIndex _ _ hc⟩
  | drwVxVyN | ldBVx | ldMemVx | ldVxMem => cases hf; exact ⟨rfl, rfl, infoInRange_outOfBounds ..⟩
  | _ => exact False.elim hf

theorem State.fetchAddr_setPc_add_two (s : State) : (s.setPc (s.pc + 2)).fetchAddr = s.pc :=
  BitVec.add_sub_cancel s.pc 2

/-- A word that faults when it runs leaves a record of itself and of the address it was fetched from. -/
theorem record_of_runWord {s : State} {w : Word} {f : Fault} (h : runWord s w = .fault f) :
    f.fetchAddr = s.pc ∧ f.fetchedWord = some w ∧ f.InfoInRange := by
  obtain ⟨i, hi⟩ | hu := decode_cases s.config.jumpOffsetReg w
  · obtain ⟨hc, hf⟩ := isFaultOf_of_exec ((runWord_of_instr hi).symm.trans h)
    obtain ⟨haddr, hword, hinfo⟩ := record_of_isFaultOf hc hf
    exact ⟨haddr.trans s.fetchAddr_setPc_add_two, hword.trans (congrArg _ (encode_of_decode hi).1), hinfo⟩
  · cases (runWord_of_unknown hu).symm.trans h
    exact ⟨rfl, rfl, nofun, nofun⟩

/-- Settles O9: a step faults in its fetch, which records no word, or in running the word it fetched. -/
theorem faultRecordNamesTheStep : Obligations.FaultRecordNamesTheStep := by
  intro s f h
  have hs := running_of_step_fault h
  have hrecord : f.fetchAddr = s.pc ∧
      f.fetchedWord = (if s.pc.toNat + 1 < 4096 then some (s.wordAt s.pc.toNat) else none) ∧ f.InfoInRange := by
    split
    case isTrue hpc => exact record_of_runWord ((step_eq_runWord hs hpc).symm.trans h)
    case isFalse hpc =>
      cases (step_of_outOfBounds hs hpc).symm.trans h
      exact ⟨rfl, rfl, infoInRange_outOfBounds ..⟩
  obtain ⟨haddr, hword, hinfo⟩ := hrecord
  exact ⟨haddr, hword, f.code_bounds.1, f.code_bounds.2, hinfo⟩

end Sys2Proof.Machine
end

/-! SUPPORT. The frame of every instruction (10_state.md R12, R16, R20, R23, R28; 20_memory.md R47), from the frames of the writes
that it is made of. -/

section
namespace Sys2Proof.Machine

/-! The frames of the shared writes. -/

theorem onlyWrites_setResultFlag (s : State) (x : RegIdx) (b : Byte) (c : Bool) :
    OnlyWrites s (s.setResultFlag x b c) (fun l => l = .reg x ∨ l = .reg flagReg) :=
  (onlyWrites_setReg s x b (.inl rfl)).trans (onlyWrites_setReg _ flagReg _ (.inr rfl))

theorem onlyWrites_setLogicResult (s : State) (x : RegIdx) (b : Byte) :
    OnlyWrites s (s.setLogicResult x b)
      (fun l => l = .reg x ∨ (s.config.logicResetsVF = true ∧ l = .reg flagReg)) := by
  have hx := onlyWrites_setReg s x b (W := fun l => l = .reg x ∨ (s.config.logicResetsVF = true ∧ l = .reg flagReg))
    (.inl rfl)
  unfold State.setLogicResult
  split
  case isTrue hreset => exact hx.trans (onlyWrites_setReg _ flagReg 0 (.inr ⟨hreset, rfl⟩))
  case isFalse => exact hx

/-- I after FX55 and FX65 changes only under LOADSTORE_I_INCREMENT = XPlus1 (R166, R167). -/
theorem onlyWrites_setIndex_bulkIndex (s t : State) (x : RegIdx) {W : Loc → Prop} (ht : t.index = s.index)
    (h : s.config.indexIncrement = .xPlus1 → W .index) : OnlyWrites t (t.setIndex (s.bulkIndex x)) W := by
  cases hinc : s.config.indexIncrement with
  | unchanged =>
    have hb : s.bulkIndex x = t.index := by simp only [State.bulkIndex, hinc, ht]
    exact hb ▸ OnlyWrites.refl t W
  | xPlus1 => exact onlyWrites_setIndex t _ (h hinc)

@[simp] theorem State.dataBytes_length (s : State) (n : Nat) : (s.dataBytes n).length = n := by
  simp only [State.dataBytes, List.length_map, List.length_range]

theorem State.dataBytes_getD (s : State) {n k : Nat} (h : k < n) : (s.dataBytes n).getD k 0 = s.byteAt (s.dataBase + k) := by
  simp [State.dataBytes, List.getD_eq_getElem?_getD, h]

/-- The registers after a bulk load (R167). -/
theorem State.reg_loadData (s : State) (x j : RegIdx) :
    (s.loadData x).reg j = if j ≤ x then s.byteAt (s.dataBase + j.val) else s.reg j := by
  have hset : (s.loadData x).reg j = _ := getElem_setRegRange s.v 0 j.val (s.dataBytes (x.val + 1)) j.isLt
  rw [State.dataBytes_length] at hset
  split
  case isTrue hj =>
    have hlt : j.val < x.val + 1 := Nat.lt_succ_of_le hj
    rw [hset, if_pos ⟨Nat.zero_le _, by omega⟩]
    exact s.dataBytes_getD hlt
  case isFalse hj =>
    have hgt : ¬ j.val ≤ x.val := hj
    rw [hset, if_neg (by omega)]
    rfl

theorem onlyWrites_loadData (s : State) (x : RegIdx) {W : Loc → Prop} (h : ∀ j, j ≤ x → W (.reg j)) :
    OnlyWrites s (s.loadData x) W := by
  refine onlyWrites_setRegs s _ fun j => ?_
  by_cases hj : j ≤ x
  · exact .inr (h j hj)
  · exact .inl ((s.reg_loadData x j).trans (if_neg hj))

/-! What the forms with more than one answer do when they complete. -/

theorem eq_of_exec_jpV0Nnn {nnn : Addr12} {s t : State} (h : exec (.jpV0Nnn nnn) s = .next t) :
    ∃ r, t = s.setPc (jumpTarget nnn r) := by
  obtain ⟨r, hr⟩ := State.jumpOffset_isSome nnn (not_faultCondition_of_exec h)
  exact ⟨r, Host.Outcome.next.inj (h.symm.trans (exec_jpV0Nnn_of_offset hr))⟩

theorem eq_of_exec_skpVx {x : RegIdx} {s t : State} (h : exec (.skpVx x) s = .next t) : ∃ c, t = s.skipIf c := by
  obtain ⟨k, hk⟩ := (s.reg_key_or_bad x).resolve_right (not_faultCondition_of_exec h)
  exact ⟨_, Host.Outcome.next.inj (h.symm.trans (exec_skpVx_of_key hk))⟩

theorem eq_of_exec_sknpVx {x : RegIdx} {s t : State} (h : exec (.sknpVx x) s = .next t) : ∃ c, t = s.skipIf c := by
  obtain ⟨k, hk⟩ := (s.reg_key_or_bad x).resolve_right (not_faultCondition_of_exec h)
  exact ⟨_, Host.Outcome.next.inj (h.symm.trans (exec_sknpVx_of_key hk))⟩

theorem eq_of_exec_ldVxK {x : RegIdx} {s t : State} (h : exec (.ldVxK x) s = .next t) :
    (∃ k, s.firstPressed = some k ∧ t = s.setReg x (BitVec.ofNat 8 k)) ∨ (s.firstPressed = none ∧ t = s.rewindPc) := by
  cases hk : s.firstPressed with
  | some k => exact .inl ⟨k, rfl, Host.Outcome.next.inj (h.symm.trans (exec_ldVxK_of_pressed x hk))⟩
  | none => exact .inr ⟨rfl, Host.Outcome.next.inj (h.symm.trans (exec_ldVxK_of_none x hk))⟩

theorem eq_of_exec_ldBVx {x : RegIdx} {s t : State} (h : exec (.ldBVx x) s = .next t) :
    t = s.storeData (bcdDigits (s.reg x)) :=
  Host.Outcome.next.inj (h.symm.trans (exec_ldBVx_of_inBounds x (Classical.not_not.mp (not_faultCondition_of_exec h))))

theorem dataInBounds_of_exec_ldMemVx {x : RegIdx} {s t : State} (h : exec (.ldMemVx x) s = .next t) :
    DataInBounds s (x.val + 1) := Classical.not_not.mp (not_faultCondition_of_exec h)

theorem eq_of_exec_ldMemVx {x : RegIdx} {s t : State} (h : exec (.ldMemVx x) s = .next t) :
    t = (s.storeData (s.regsUpTo x)).setIndex (s.bulkIndex x) :=
  Host.Outcome.next.inj (h.symm.trans (exec_ldMemVx_of_inBounds (dataInBounds_of_exec_ldMemVx h)))

theorem eq_of_exec_ldVxMem {x : RegIdx} {s t : State} (h : exec (.ldVxMem x) s = .next t) :
    t = (s.loadData x).setIndex (s.bulkIndex x) :=
  Host.Outcome.next.inj (h.symm.trans (exec_ldVxMem_of_inBounds (Classical.not_not.mp (not_faultCondition_of_exec h))))

/-- A RET that completes jumps to the slot that it uncounts (R84). -/
theorem eq_of_exec_ret {s t : State} (h : exec .ret s = .next t) :
    ∃ j u, j.val + 1 = s.sp.val ∧ t = State.setPc u (s.slot j) ∧ u.sp.val = j.val ∧ OnlyWrites s u (fun l => l = .sp) := by
  obtain ⟨w, u, hpop⟩ := State.pop_isSome (not_faultCondition_of_exec h)
  obtain ⟨j, hj, rfl, hsp, hframe⟩ := State.pop_eq_some hpop
  exact ⟨j, u, hj, Host.Outcome.next.inj (h.symm.trans (exec_ret_of_pop hpop)), hsp, hframe⟩

/-- A CALL that completes fills and counts the next slot, and jumps (R86). -/
theorem eq_of_exec_call {nnn : Addr12} {s t : State} (h : exec (.call nnn) s = .next t) :
    ∃ j u, j.val = s.sp.val ∧ t = State.setPc u (addrOperand nnn) ∧ u.slot j = s.pc ∧ u.sp.val = s.sp.val + 1 ∧
      OnlyWrites s u (fun l => l = .sp ∨ l = .slot j) := by
  have hfree : s.sp.val ≠ 16 := not_faultCondition_of_exec h
  obtain ⟨u, hpush⟩ := State.push_isSome (s := s) s.pc (by omega)
  obtain ⟨j, hj, hslot, hsp, hframe⟩ := State.push_eq_some hpush
  exact ⟨j, u, hj, Host.Outcome.next.inj (h.symm.trans (exec_call_of_push nnn hpush)), hslot, hsp, hframe⟩

/-- Every instruction writes only the places that its rule names. -/
theorem onlyWrites_exec {i : Instr} {s t : State} (h : exec i s = .next t) : OnlyWrites s t (MayWrite s i) := by
  cases i with
  | nop => cases h; exact OnlyWrites.refl s _
  | cls => cases h; exact onlyWrites_setFb s _ fun px py => ⟨px, py, rfl⟩
  | ret =>
    obtain ⟨j, u, -, rfl, -, hframe⟩ := eq_of_exec_ret h
    exact (hframe.mono fun _ => .inr).trans (onlyWrites_setPc u _ (.inl rfl))
  | jp => cases h; exact onlyWrites_setPc s _ rfl
  | call =>
    obtain ⟨j, u, hj, rfl, -, -, hframe⟩ := eq_of_exec_call h
    exact (hframe.mono fun _ hl => .inr (hl.imp_right fun hslot => ⟨j, hj, hslot⟩)).trans
      (onlyWrites_setPc u _ (.inl rfl))
  | seVxNn | sneVxNn | seVxVy | sneVxVy => cases h; exact onlyWrites_skipIf s _ rfl
  | ldVxNn | addVxNn | ldVxVy | ldVxDt => cases h; exact onlyWrites_setReg s _ _ rfl
  | orVxVy | andVxVy | xorVxVy => cases h; exact onlyWrites_setLogicResult s _ _
  | addVxVy | subVxVy | shrVxVy | subnVxVy | shlVxVy => cases h; exact onlyWrites_setResultFlag s _ _ _
  | ldINnn | addIVx | ldFVx => cases h; exact onlyWrites_setIndex s _ rfl
  | jpV0Nnn =>
    obtain ⟨r, rfl⟩ := eq_of_exec_jpV0Nnn h
    exact onlyWrites_setPc s _ rfl
  | rndVxNn x =>
    cases h
    exact (onlyWrites_countDraw s (.inr rfl)).trans (onlyWrites_setReg s.countDraw x _ (.inl rfl))
  | drwVxVyN =>
    obtain ⟨rows, -, rfl⟩ := exec_drwVxVyN_eq_next h
    exact (onlyWrites_setFb s _ fun px py => .inr ⟨px, py, rfl⟩).trans (onlyWrites_setReg _ flagReg _ (.inl rfl))
  | skpVx =>
    obtain ⟨c, rfl⟩ := eq_of_exec_skpVx h
    exact onlyWrites_skipIf s c rfl
  | sknpVx =>
    obtain ⟨c, rfl⟩ := eq_of_exec_sknpVx h
    exact onlyWrites_skipIf s c rfl
  | ldVxK x =>
    obtain ⟨k, hk, rfl⟩ | ⟨hk, rfl⟩ := eq_of_exec_ldVxK h
    · exact onlyWrites_setReg s x _ (.inl ⟨hk ▸ Option.some_ne_none k, rfl⟩)
    · exact onlyWrites_rewindPc s (.inr ⟨hk, rfl⟩)
  | ldDtVx => cases h; exact onlyWrites_setDt s _ rfl
  | ldStVx => cases h; exact onlyWrites_setSt s _ rfl
  | ldBVx =>
    obtain rfl := eq_of_exec_ldBVx h
    exact onlyWrites_storeData s _
  | ldMemVx x =>
    obtain rfl := eq_of_exec_ldMemVx h
    have hstore := onlyWrites_storeData s (s.regsUpTo x)
    rw [State.regsUpTo_length] at hstore
    exact (hstore.mono fun _ => .inl).trans (onlyWrites_setIndex_bulkIndex s _ x rfl fun hinc => .inr ⟨hinc, rfl⟩)
  | ldVxMem x =>
    obtain rfl := eq_of_exec_ldVxMem h
    exact (onlyWrites_loadData s x fun j hj => .inl ⟨j, hj, rfl⟩).trans
      (onlyWrites_setIndex_bulkIndex s _ x rfl fun hinc => .inr ⟨hinc, rfl⟩)

/-- Settles O10, by cases on the instruction: each is made of writes whose frames are known. -/
theorem everyInstructionWritesOnlyItsPlaces : Obligations.EveryInstructionWritesOnlyItsPlaces :=
  fun _ _ _ => onlyWrites_exec

theorem mem_of_exec_drwVxVyN {x y : RegIdx} {n : Count} {s t : State} (h : exec (.drwVxVyN x y n) s = .next t) :
    t.mem = s.mem := by
  obtain ⟨rows, -, rfl⟩ := exec_drwVxVyN_eq_next h
  rfl

theorem mem_of_exec_ldVxMem {x : RegIdx} {s t : State} (h : exec (.ldVxMem x) s = .next t) : t.mem = s.mem := by
  obtain rfl := eq_of_exec_ldVxMem h
  rfl

/-- Settles O16: memory is a part that `exec_graft` covers; DXYN writes the screen and V[F], FX65 registers and I. -/
theorem onlyFourInstructionsTouchMemory : Obligations.OnlyFourInstructionsTouchMemory := by
  refine ⟨fun i s m hdrw hbulk => ?_, fun s t x y n => mem_of_exec_drwVxVyN, fun s t x => mem_of_exec_ldVxMem⟩
  refine exec_graft .memory (s.setMem m) s i ?_
  rintro (⟨x, y, n, e⟩ | ⟨x, e⟩)
  · exact hdrw x y n e
  · obtain ⟨hb, hd, hl⟩ := hbulk x
    exact e.elim hb (Or.elim · hd hl)

end Sys2Proof.Machine
end

/-! SUPPORT. The invariant of reachable states (10_state.md R22): where pc, a stack slot and memory can come from in one instruction,
and from there in one step and in one host operation. -/

section
namespace Sys2Proof.Machine

/-- The sum of BNNN is exact (R87). -/
theorem jumpTarget_toNat (nnn : Addr12) (r : Byte) : (jumpTarget nnn r).toNat = nnn.toNat + r.toNat := by
  have hr : (r.setWidth 16).toNat = r.toNat := BitVec.toNat_setWidth_of_le (by decide)
  rw [jumpTarget, BitVec.toNat_add, addrOperand_toNat, hr]
  exact Nat.mod_eq_of_lt (by omega)

theorem State.skipIf_pc_cases (s : State) (c : Bool) : (s.skipIf c).pc = s.pc ∨ (s.skipIf c).pc = s.pc + 2 := by
  cases c
  · exact .inl rfl
  · exact .inr rfl

theorem addrOperand_toNat_le (nnn : Addr12) : (addrOperand nnn).toNat ≤ 0x10FE := by rw [addrOperand_toNat]; omega

theorem jumpTarget_toNat_le (nnn : Addr12) (r : Byte) : (jumpTarget nnn r).toNat ≤ 0x10FE := by rw [jumpTarget_toNat]; omega

/-- Where pc can come from: it stays or skips, goes back, is the target of a jump, or is a stack slot. -/
theorem pc_of_exec {i : Instr} {s t : State} (h : exec i s = .next t) :
    (t.pc = s.pc ∨ t.pc = s.pc + 2) ∨ t.pc = s.pc - 2 ∨ t.pc.toNat ≤ 0x10FE ∨ ∃ j, t.pc = s.slot j := by
  cases i with
  | ret =>
    obtain ⟨j, u, -, rfl, -, -⟩ := eq_of_exec_ret h
    exact .inr (.inr (.inr ⟨j, rfl⟩))
  | jp nnn => cases h; exact .inr (.inr (.inl (addrOperand_toNat_le nnn)))
  | call nnn =>
    obtain ⟨j, u, -, rfl, -, -, -⟩ := eq_of_exec_call h
    exact .inr (.inr (.inl (addrOperand_toNat_le nnn)))
  | jpV0Nnn nnn =>
    obtain ⟨r, rfl⟩ := eq_of_exec_jpV0Nnn h
    exact .inr (.inr (.inl (jumpTarget_toNat_le nnn r)))
  | seVxNn | sneVxNn | seVxVy | sneVxVy => cases h; exact .inl (s.skipIf_pc_cases _)
  | skpVx => obtain ⟨c, rfl⟩ := eq_of_exec_skpVx h; exact .inl (s.skipIf_pc_cases c)
  | sknpVx => obtain ⟨c, rfl⟩ := eq_of_exec_sknpVx h; exact .inl (s.skipIf_pc_cases c)
  | ldVxK =>
    obtain ⟨k, -, rfl⟩ | ⟨-, rfl⟩ := eq_of_exec_ldVxK h
    · exact .inl (.inl rfl)
    · exact .inr (.inl rfl)
  | _ => exact .inl (.inl (onlyWrites_exec h .pc (by simp [MayWrite])))

/-- A stack slot stays or, in a CALL, takes pc. -/
theorem slot_of_exec {i : Instr} {s t : State} (j : Fin 16) (h : exec i s = .next t) :
    t.slot j = s.slot j ∨ t.slot j = s.pc := by
  cases i with
  | call =>
    obtain ⟨k, u, -, rfl, hslot, -, hframe⟩ := eq_of_exec_call h
    by_cases hj : j = k
    · exact .inr (hj ▸ hslot)
    · exact .inl (hframe (.slot j) (by simp [hj]))
  | _ => exact .inl (onlyWrites_exec h (.slot j) (by simp [MayWrite]))

/-- A store that stays in bounds keeps the canonical form. -/
theorem wf_storeData {s : State} {bs : List Byte} (hm : s.mem.wf) (hb : DataInBounds s bs.length) :
    (s.storeData bs).mem.wf :=
  memWriteRange_wf hm ((memWriteRange_eq ..).trans (if_pos hb))

/-- Every instruction keeps memory in canonical form: it leaves memory alone, or stores in bounds. -/
theorem wf_of_exec {i : Instr} {s t : State} (h : exec i s = .next t) (hm : s.mem.wf) : t.mem.wf := by
  by_cases hu : Component.memory.UsedBy i
  · obtain ⟨x, y, n, rfl⟩ | ⟨x, rfl | rfl | rfl⟩ := hu
    · exact mem_of_exec_drwVxVyN h ▸ hm
    · have hb := Classical.not_not.mp (not_faultCondition_of_exec h)
      obtain rfl := eq_of_exec_ldBVx h
      exact wf_storeData hm hb
    · have hb := dataInBounds_of_exec_ldMemVx h
      obtain rfl := eq_of_exec_ldMemVx h
      exact wf_storeData hm (dataInBounds_regsUpTo_iff.mpr hb)
    · exact mem_of_exec_ldVxMem h ▸ hm
  · rw [eq_graft_of_exec hu h]
    exact hm

theorem config_of_exec {i : Instr} {s t : State} (h : exec i s = .next t) : t.config = s.config :=
  onlyWrites_exec h .config (by cases i <;> simp [MayWrite])

/-- An instruction executed with pc past a fetch gives a state that meets the invariant. -/
theorem stateInv_exec {i : Instr} {s t : State} (hm : s.mem.wf) (hlo : 2 ≤ s.pc.toNat) (hhi : s.pc.toNat ≤ 0x1000)
    (hslots : ∀ j, (s.slot j).toNat ≤ 0x1000) (h : exec i s = .next t) : StateInv t := by
  refine ⟨wf_of_exec h hm, ?_, fun j => ?_⟩
  · obtain (hpc | hpc) | hpc | hpc | ⟨j, hpc⟩ := pc_of_exec h
    · rw [hpc]; omega
    · rw [hpc]; bv_omega
    · rw [hpc]; bv_omega
    · exact hpc
    · rw [hpc]; exact Nat.le_trans (hslots j) (by decide)
  · obtain hslot | hslot := slot_of_exec j h
    · exact hslot ▸ hslots j
    · exact hslot ▸ hhi

/-- A step that answers could fetch. -/
theorem pc_lt_of_step {s t : State} (h : step s = .next t) : s.pc.toNat + 1 < 4096 := by
  cases hs : s.status with
  | running => exact Decidable.not_not.mp fun hpc => nomatch (step_of_outOfBounds hs hpc).symm.trans h
  | faulted f => cases (step_of_faulted hs).symm.trans h

theorem stateInv_step {s t : State} (hi : StateInv s) (h : step s = .next t) : StateInv t := by
  obtain ⟨hm, -, hslots⟩ := hi
  obtain ⟨i, hexec⟩ := exec_of_step h
  have hpc := pc_lt_of_step h
  have hadv : s.advancePc.pc.toNat = s.pc.toNat + 2 := by rw [State.advancePc_pc]; bv_omega
  exact stateInv_exec (s := s.advancePc) hm (by omega) (by omega) hslots hexec

/-- Settles O19: a step that answers runs an instruction with pc just past a fetch, from which `stateInv_exec` bounds every place. -/
theorem stepKeepsTheInvariant : Obligations.StepKeepsTheInvariant := fun _ _ => stateInv_step

theorem config_of_step {s t : State} (h : step s = .next t) : t.config = s.config := by
  obtain ⟨i, hexec⟩ := exec_of_step h
  exact (config_of_exec hexec).trans s.advancePc_config

/-! The host's operations (60_exceptions.md R197). -/

theorem stateInv_initial (c : Config) : StateInv (State.initial c) :=
  ⟨initialMem_wf c.font, show (0x200 : Word).toNat ≤ 0x10FE by decide, fun j => by rw [State.initial_slot]; decide⟩

/-- Settles O18: the reset state is the initial one for the default parameters. -/
theorem resetMeetsTheInvariant : Obligations.ResetMeetsTheInvariant := by
  obtain ⟨-, hreset⟩ := initializeGivesTheResetState
  unfold Obligations.ResetMeetsTheInvariant
  exact hreset ▸ stateInv_initial defaultConfig

theorem imageFits_iff {image : List Byte} : imageFits image = true ↔ 0x200 + image.length ≤ 4096 := decide_eq_true_iff

theorem State.hostLoad_of_fits {s : State} {image : List Byte} (h : 0x200 + image.length ≤ 4096) :
    s.hostLoad image = (s.load image, .ok) := if_pos (imageFits_iff.mpr h)

theorem State.hostLoad_of_tooLarge {s : State} {image : List Byte} (h : ¬ 0x200 + image.length ≤ 4096) :
    s.hostLoad image = (s, .loadTooLarge) := if_neg (mt imageFits_iff.mp h)

theorem stateInv_hostLoad {s : State} (image : List Byte) (hi : StateInv s) : StateInv (s.hostLoad image).1 := by
  by_cases hfit : 0x200 + image.length ≤ 4096
  · rw [State.hostLoad_of_fits hfit]
    exact ⟨Memory.writeList_wf image hi.1 hfit, hi.2⟩
  · rw [State.hostLoad_of_tooLarge hfit]
    exact hi

theorem State.hostLoad_config (s : State) (image : List Byte) : (s.hostLoad image).1.config = s.config := by
  unfold State.hostLoad; split <;> rfl

/-- A set key state that answers sets a key whose index is in range (R199). -/
theorem eq_of_hostSetKey {s t : State} {key : Nat} {pressed : Bool} {r : Reply}
    (h : s.hostSetKey key pressed = .ok (t, r)) : ∃ k, t = s.setKey k pressed := by
  unfold State.hostSetKey at h
  split at h <;> cases h
  exact ⟨_, rfl⟩

/-- Every host operation keeps the invariant and the parameters. -/
theorem stateInv_hostCall {op : HostOp} {s t : State} {r : Reply} (hi : StateInv s) (h : hostCall op s = .ok (t, r)) :
    StateInv t ∧ t.config = s.config := by
  obtain ⟨-, h⟩ := admitted_of_hostCall h
  cases op with
  | reset => cases h; exact ⟨stateInv_initial s.config, rfl⟩
  | loadProgram image =>
    obtain rfl : (s.hostLoad image).1 = t := congrArg Prod.fst (Except.ok.inj h)
    exact ⟨stateInv_hostLoad image hi, s.hostLoad_config image⟩
  | setKeyState key pressed =>
    obtain ⟨k, rfl⟩ := eq_of_hostSetKey h
    exact ⟨hi, rfl⟩
  | step =>
    obtain hs | ⟨f, -, rfl⟩ := step_of_hostStep h
    · exact ⟨stateInv_step hi hs, config_of_step hs⟩
    · exact ⟨hi, rfl⟩
  | advanceTimers => cases h; exact ⟨hi, rfl⟩
  | readFramebuffer => cases h; exact ⟨hi, rfl⟩

/-- Settles O20, by cases on the operation: a step by O19's lemma, a reset by the initial state, and the rest leave pc and the stack
alone. -/
theorem hostOperationsKeepTheInvariant : Obligations.HostOperationsKeepTheInvariant := fun _ _ _ _ => stateInv_hostCall

/-- A sequence of calls that answers is a call that answers and a sequence that does (R203). -/
theorem hostRun_cons_eq_ok {op : HostOp} {ops : List HostOp} {s t : State} {rs : List Reply}
    (h : hostRun (op :: ops) s = .ok (t, rs)) :
    ∃ u r rs', hostCall op s = .ok (u, r) ∧ hostRun ops u = .ok (t, rs') := by
  unfold hostRun at h
  split at h
  · cases h
  · split at h <;> cases h
    exact ⟨_, _, _, ‹_›, ‹_›⟩

theorem stateInv_hostRun {ops : List HostOp} {s t : State} {rs : List Reply} (hi : StateInv s)
    (h : hostRun ops s = .ok (t, rs)) : StateInv t ∧ t.config = s.config := by
  induction ops generalizing s rs with
  | nil => cases h; exact ⟨hi, rfl⟩
  | cons op ops ih =>
    obtain ⟨u, r, rs', hcall, hrun⟩ := hostRun_cons_eq_ok h
    obtain ⟨hu, hcu⟩ := stateInv_hostCall hi hcall
    obtain ⟨ht, hct⟩ := ih hu hrun
    exact ⟨ht, hct.trans hcu⟩

/-- Settles O21, by induction on the operations from the initial state. -/
theorem everyReachableStateMeetsTheInvariant : Obligations.EveryReachableStateMeetsTheInvariant :=
  fun c _ _ _ => stateInv_hostRun (stateInv_initial c)

end Sys2Proof.Machine
end

/-! SUPPORT. Returns, jumps with offset and key skips (40_control.md R84, R86, R87; 45_key_skip.md R150 to R152). -/

section
namespace Sys2Proof.Machine

theorem State.slot_of_stack_eq {s t : State} (j : Fin 16) (h : t.stack = s.stack) : t.slot j = s.slot j := by
  simp only [State.slot, h]

/-- Settles O27: the slot that the CALL filled is the top one, so the RET takes the advanced pc of the CALL from it. -/
theorem returnResumesAfterTheCall : Obligations.ReturnResumesAfterTheCall := by
  intro nnn s t u hcall hstack hsp
  obtain ⟨j, c, hj, rfl, hslot, hcount, -⟩ := eq_of_exec_call hcall
  have htop : u.sp.val = j.val + 1 := by rw [hsp, hj]; exact hcount
  obtain ⟨v, hpop, hv, -⟩ := State.pop_of_sp_eq htop
  refine ⟨v.setPc (u.slot j), exec_ret_of_pop hpop, ?_, Fin.ext (hv.trans hj)⟩
  calc u.slot j = c.slot j := State.slot_of_stack_eq j hstack
    _ = s.pc := hslot

/-- A form that answers a jump leaves the target in pc, here by its value, and writes nothing else. -/
theorem exec_of_setPc {i : Instr} {s : State} {w : Word} {n : Nat} (he : exec i s = .next (s.setPc w))
    (hw : w.toNat = n) : ∃ t, exec i s = .next t ∧ t.pc.toNat = n ∧ OnlyWrites s t (fun l => l = .pc) :=
  ⟨s.setPc w, he, hw, onlyWrites_setPc s w rfl⟩

/-- The X field of a BNNN word is the high nibble of its NNN (R87). -/
theorem jumpX_eq {nnn : Addr12} {x : RegIdx} (h : nnn.toNat / 256 = x.val) : jumpX nnn = x := by
  have hval : (jumpX nnn).val = nnn.toNat / 256 % 16 := by simp [jumpX, Nat.shiftRight_eq_div_pow]
  exact Fin.ext (by omega)

/-- Settles O28: the offset register is read by JUMP_OFFSET_REG, and the sum with it is exact. -/
theorem jumpWithOffsetAddsTheRegister : Obligations.JumpWithOffsetAddsTheRegister := by
  refine fun nnn s => ⟨Laws.RoundTrip.jpV0Nnn nnn .v0 rfl, Laws.RoundTrip.jpV0Nnn nnn .vx rfl, fun hp => ?_,
    fun hp x hx => ?_, exec_jpV0Nnn_of_absent nnn⟩
  · exact exec_of_setPc (exec_jpV0Nnn_of_offset (State.jumpOffset_of_v0 nnn hp)) (jumpTarget_toNat nnn _)
  · have hoffset := State.jumpOffset_of_vx nnn hp
    rw [jumpX_eq hx] at hoffset
    exact exec_of_setPc (exec_jpV0Nnn_of_offset hoffset) (jumpTarget_toNat nnn _)

/-- Settles O43: with a key named, both forms are skips, one under the key's state and the other under its negation; with none, both
raise the fault. -/
theorem keySkips : Obligations.KeySkips := fun p x s =>
  ⟨Laws.RoundTrip.skpVx x p rfl, Laws.RoundTrip.sknpVx x p rfl,
    fun k hk => ⟨exec_of_skipIf (exec_skpVx_of_key hk) Iff.rfl,
      exec_of_skipIf (exec_sknpVx_of_key hk) (Bool.not_eq_true' (s.key k) ▸ Iff.rfl)⟩,
    fun hk => ⟨exec_skpVx_of_badKey hk, exec_sknpVx_of_badKey hk⟩⟩

end Sys2Proof.Machine
end

/-! SUPPORT. Arithmetic (42_alu.md R111 to R114, R118 to R125): a result and then a flag, and the flags as arithmetic on naturals. -/

section
namespace Sys2Proof.Machine

/-! A result and then a flag (R111). -/

theorem State.reg_setResultFlag_flagReg (s : State) (x : RegIdx) (b : Byte) (c : Bool) :
    (s.setResultFlag x b c).reg flagReg = flagByte c := State.reg_setReg_self ..

theorem State.reg_setResultFlag_of_ne (s : State) {x : RegIdx} (b : Byte) (c : Bool) (h : x ≠ flagReg) :
    (s.setResultFlag x b c).reg x = b :=
  (State.reg_setReg_of_ne _ _ h).trans (State.reg_setReg_self ..)

/-- A form that answers a result and a flag leaves the flag in V[F] and, elsewhere, the result, here by their values. -/
theorem exec_of_setResultFlag {i : Instr} {s : State} {x : RegIdx} {b : Byte} {c : Bool} {r f : Nat}
    (he : exec i s = .next (s.setResultFlag x b c)) (hf : (flagByte c).toNat = f) (hr : b.toNat = r) :
    ∃ t, exec i s = .next t ∧ (t.reg flagReg).toNat = f ∧ (x ≠ flagReg → (t.reg x).toNat = r) ∧
      OnlyWrites s t (fun l => l = .reg x ∨ l = .reg flagReg) := by
  refine ⟨_, he, ?_, fun hx => ?_, onlyWrites_setResultFlag s x b c⟩
  · rwa [State.reg_setResultFlag_flagReg]
  · rwa [State.reg_setResultFlag_of_ne s b c hx]

theorem flagByte_decide_toNat (P : Prop) [Decidable P] : (flagByte (decide P)).toNat = if P then 1 else 0 := by
  by_cases h : P <;> simp [flagByte, h]

/-- The carry is the exact sum's part above 255 (R121). -/
theorem flagByte_carryFlag_toNat (a b : Byte) : (flagByte (carryFlag a b)).toNat = (a.toNat + b.toNat) / 256 := by
  rw [carryFlag, flagByte_decide_toNat]
  split <;> omega

/-- A bit of a byte as a flag (R123, R125). -/
theorem flagByte_getLsbD_toNat (b : Byte) (k : Nat) : (flagByte (b.getLsbD k)).toNat = b.toNat / 2 ^ k % 2 := by
  have hbit : b.getLsbD k = decide (b.toNat / 2 ^ k % 2 = 1) := Nat.testBit_eq_decide_div_mod_eq
  rw [hbit, flagByte_decide_toNat]
  split <;> omega

/-- Settles O34: the sum of two bytes is the exact sum modulo 256, and the carry is what is above. -/
theorem addWithCarry : Obligations.AddWithCarry := fun p x y _ =>
  ⟨Laws.RoundTrip.addVxVy x y p rfl,
    exec_of_setResultFlag rfl (flagByte_carryFlag_toNat ..) (BitVec.toNat_add ..)⟩

/-- A form that answers a difference and its flag, in both values of SUB_VF_POLARITY (R112). -/
theorem exec_of_difference {i : Instr} {s : State} {x : RegIdx} {m d : Byte}
    (he : exec i s = .next (s.setResultFlag x (m - d) (subFlag s.config.subPolarity m d))) :
    ∃ t, exec i s = .next t ∧
      (s.config.subPolarity = .notBorrow → t.reg flagReg = if d.toNat ≤ m.toNat then 1 else 0) ∧
      (s.config.subPolarity = .borrow → t.reg flagReg = if m.toNat < d.toNat then 1 else 0) ∧
      (x ≠ flagReg → (t.reg x).toNat = (m.toNat + 256 - d.toNat) % 256) ∧
      OnlyWrites s t (fun l => l = .reg x ∨ l = .reg flagReg) := by
  have hdiff : (m - d).toNat = (m.toNat + 256 - d.toNat) % 256 := by bv_omega
  refine ⟨_, he, fun hp => ?_, fun hp => ?_, fun hx => ?_, onlyWrites_setResultFlag s x _ _⟩
  · simp only [State.reg_setResultFlag_flagReg, hp, subFlag, flagByte, decide_eq_true_eq]
  · simp only [State.reg_setResultFlag_flagReg, hp, subFlag, flagByte, decide_eq_true_eq]
  · rwa [State.reg_setResultFlag_of_ne s _ _ hx]

/-- Settles O35: both forms are a difference and its flag, with the operands exchanged. -/
theorem subtractAndReverseSubtract : Obligations.SubtractAndReverseSubtract := by
  refine fun p x y s => ⟨Laws.RoundTrip.subVxVy x y p rfl, Laws.RoundTrip.subnVxVy x y p rfl, fun i m d hi => ?_⟩
  simp only [List.mem_cons, List.not_mem_nil, or_false, Prod.mk.injEq] at hi
  obtain ⟨rfl, rfl, rfl⟩ | ⟨rfl, rfl, rfl⟩ := hi
  · exact exec_of_difference rfl
  · exact exec_of_difference rfl

theorem shiftRight_one_toNat (b : Byte) : (b >>> 1).toNat = b.toNat / 2 := by
  rw [BitVec.toNat_ushiftRight, Nat.shiftRight_eq_div_pow]

theorem shiftLeft_one_toNat (b : Byte) : (b <<< 1).toNat = b.toNat * 2 % 256 := by
  rw [BitVec.toNat_shiftLeft, Nat.shiftLeft_eq]

/-- Settles O36: SHIFT_SOURCE names the register z that is shifted; the bit shifted out is its lowest or its highest. -/
theorem shiftsByOne : Obligations.ShiftsByOne := by
  refine fun p x y z s => ⟨Laws.RoundTrip.shrVxVy x y p rfl, Laws.RoundTrip.shlVxVy x y p rfl, fun hz => ?_⟩
  have hsource : s.shiftOperand x y = s.reg z := by
    unfold State.shiftOperand
    subst hz
    cases s.config.shiftSource <;> rfl
  have hlow : (flagByte (shrFlag (s.shiftOperand x y))).toNat = (s.reg z).toNat % 2 := by
    rw [hsource, shrFlag, flagByte_getLsbD_toNat, Nat.pow_zero, Nat.div_one]
  have hhigh : (flagByte (shlFlag (s.shiftOperand x y))).toNat = (s.reg z).toNat / 128 := by
    rw [hsource, shlFlag, flagByte_getLsbD_toNat]
    omega
  exact ⟨exec_of_setResultFlag rfl hlow (hsource ▸ shiftRight_one_toNat _),
    exec_of_setResultFlag rfl hhigh (hsource ▸ shiftLeft_one_toNat _)⟩

/-! The logic forms (R114, R118 to R120). -/

theorem State.reg_setLogicResult (s : State) (x j : RegIdx) (b : Byte) :
    (s.setLogicResult x b).reg j =
      if s.config.logicResetsVF = true ∧ j = flagReg then 0 else if j = x then b else s.reg j := by
  unfold State.setLogicResult
  split
  case isTrue hreset => simp only [State.reg_setReg, hreset, true_and]
  case isFalse hkeep => rw [if_neg (hkeep ·.1), State.reg_setReg]

theorem exec_of_setLogicResult {i : Instr} {s : State} {x : RegIdx} {b : Byte}
    (he : exec i s = .next (s.setLogicResult x b)) :
    ∃ t, exec i s = .next t ∧
      (∀ j, t.reg j = if s.config.logicResetsVF = true ∧ j = flagReg then 0 else if j = x then b else s.reg j) ∧
      OnlyWrites s t (fun l => ∃ j, l = .reg j) := by
  refine ⟨_, he, fun j => s.reg_setLogicResult x j b, (onlyWrites_setLogicResult s x b).mono ?_⟩
  rintro l (rfl | ⟨-, rfl⟩)
  · exact ⟨x, rfl⟩
  · exact ⟨flagReg, rfl⟩

/-- Settles O33: the three forms answer the same write of their own result. -/
theorem logicForms : Obligations.LogicForms := by
  refine fun p x y _ => ⟨Laws.RoundTrip.orVxVy x y p rfl, Laws.RoundTrip.andVxVy x y p rfl,
    Laws.RoundTrip.xorVxVy x y p rfl, fun i r hi => ?_⟩
  simp only [List.mem_cons, List.not_mem_nil, or_false, Prod.mk.injEq] at hi
  obtain ⟨rfl, rfl⟩ | ⟨rfl, rfl⟩ | ⟨rfl, rfl⟩ := hi
  · exact exec_of_setLogicResult rfl
  · exact exec_of_setLogicResult rfl
  · exact exec_of_setLogicResult rfl

/-! The writers of V[F] (R14). -/

theorem flagByte_eq_zero_or_one (c : Bool) : flagByte c = 0 ∨ flagByte c = 1 := by
  cases c
  · exact .inl rfl
  · exact .inr rfl

/-- An instruction of a list leaves V[F] alone if none of the list may write it. -/
theorem flagReg_of_exec_of_mem {is : List Instr} {i : Instr} {s t : State}
    (h : ∀ i ∈ is, ¬ MayWrite s i (.reg flagReg)) (hi : i ∈ is) (he : exec i s = .next t) :
    t.reg flagReg = s.reg flagReg :=
  onlyWrites_exec he (.reg flagReg) (h i hi)

theorem flagReg_of_setLogicResult {s : State} {x : RegIdx} (b : Byte) (hx : x ≠ flagReg) :
    (s.setLogicResult x b).reg flagReg = if s.config.logicResetsVF then 0 else s.reg flagReg := by
  simp only [State.reg_setLogicResult, and_true, if_neg hx.symm]

/-- Settles O11: by the frames, a form that may not write V[F] leaves it; the logic forms and the flag-setting forms write it as
their own lemmas say. -/
theorem flagRegisterWriters : Obligations.FlagRegisterWriters := by
  intro s t x y nn nnn n
  refine ⟨fun i hi he => flagReg_of_exec_of_mem (by simp [MayWrite]) hi he, fun hx i hi he => ?_, fun hx i hi he => ?_,
    fun i hi he => ?_⟩
  · have hne : x.val ≠ 15 := fun e => hx (Fin.ext e)
    have hlow : x < flagReg := show x.val < 15 by omega
    exact flagReg_of_exec_of_mem (by simp [MayWrite, hx.symm, hlow]) hi he
  · simp only [List.mem_cons, List.not_mem_nil, or_false] at hi
    obtain rfl | rfl | rfl := hi
    all_goals cases he; exact flagReg_of_setLogicResult _ hx
  · simp only [List.mem_cons, List.not_mem_nil, or_false] at hi
    have hflag : ∃ c, t.reg flagReg = flagByte c := by
      obtain rfl | rfl | rfl | rfl | rfl | rfl := hi
      case inr.inr.inr.inr.inr =>
        obtain ⟨rows, -, rfl⟩ := exec_drwVxVyN_eq_next he
        exact ⟨_, State.reg_setReg_self ..⟩
      all_goals cases he; exact ⟨_, State.reg_setResultFlag_flagReg ..⟩
    obtain ⟨c, hc⟩ := hflag
    exact hc ▸ flagByte_eq_zero_or_one c

end Sys2Proof.Machine
end

/-! SUPPORT. Index and random (43_index_random.md R131 to R133). -/

section
namespace Sys2Proof.Machine

/-- Settles O38: the form is a write of I, and the sum of two words is the exact sum modulo 65536. -/
theorem addToIndexWraps : Obligations.AddToIndexWraps := by
  refine fun p x s => ⟨Laws.RoundTrip.addIVx x p rfl, exec_of_setIndex rfl ?_⟩
  have hx : ((s.reg x).setWidth 16).toNat = (s.reg x).toNat := BitVec.toNat_setWidth_of_le (by decide)
  rw [BitVec.toNat_add, hx]

/-- Settles O39: the form counts the draw and writes V[X], and the rest is bitwise AND. -/
theorem randomIsMaskedByNn : Obligations.RandomIsMaskedByNn := by
  refine fun p x nn s => ⟨Laws.RoundTrip.rndVxNn x nn p rfl, s.countDraw.setMasked x s.nextRandom nn, s.nextRandom, rfl, rfl, ?_⟩
  have hx : (s.countDraw.setMasked x s.nextRandom nn).reg x = s.nextRandom &&& nn := State.reg_setReg_self ..
  refine ⟨hx, fun k hk => ?_, ?_, ?_, rfl,
    (onlyWrites_countDraw s (.inr rfl)).trans (onlyWrites_setReg s.countDraw x _ (.inl rfl))⟩
  · rw [hx, BitVec.getLsbD_and, hk, Bool.and_false]
  · rintro rfl; exact hx.trans BitVec.and_zero
  · rintro rfl; exact hx.trans BitVec.and_allOnes

end Sys2Proof.Machine
end

/-! SUPPORT. Sprite draw (44_display.md R141, R142): its flag, and a second draw of the same sprite. -/

section
namespace Sys2Proof.Machine

/-- The flag of a draw is whether a covered cell was lit (R141). -/
theorem flagReg_of_exec_drwVxVyN {x y : RegIdx} {n : Count} {s t : State} (h : exec (.drwVxVyN x y n) s = .next t) :
    ∃ c, t.reg flagReg = flagByte c ∧
      (c = true ↔ ∃ px py, SpriteCovers s (s.reg x) (s.reg y) n.val px py ∧ s.cell px py = true) := by
  obtain ⟨rows, hrows, rfl⟩ := exec_drwVxVyN_eq_next h
  have hlen : rows.length ≤ 32 := by have := n.isLt; simp [hrows]; omega
  refine ⟨_, State.reg_setReg_self .., (s.drawSprite_spec _ _ rows hlen).2.trans ?_⟩
  simp only [Prod.exists, hrows, mem_spritePoints_iff_spriteCovers]

theorem flagReg_eq_one_of_lit {x y : RegIdx} {n : Count} {s t : State} (h : exec (.drwVxVyN x y n) s = .next t)
    (hlit : ∃ px py, SpriteCovers s (s.reg x) (s.reg y) n.val px py ∧ s.cell px py = true) : t.reg flagReg = 1 := by
  obtain ⟨c, hflag, hc⟩ := flagReg_of_exec_drwVxVyN h
  rw [hflag, hc.mpr hlit, flagByte, if_pos rfl]

theorem flagReg_eq_zero_of_unlit {x y : RegIdx} {n : Count} {s t : State} (h : exec (.drwVxVyN x y n) s = .next t)
    (hunlit : ∀ px py, SpriteCovers s (s.reg x) (s.reg y) n.val px py → s.cell px py = false) : t.reg flagReg = 0 := by
  obtain ⟨c, hflag, hc⟩ := flagReg_of_exec_drwVxVyN h
  have hno : c ≠ true := fun htrue => by
    obtain ⟨px, py, hcov, hlit⟩ := hc.mp htrue
    exact Bool.false_ne_true ((hunlit px py hcov).symm.trans hlit)
  rw [hflag, flagByte, if_neg hno]

/-- Settles O40: a draw in bounds completes, with the cells and the flag of `drawSprite_spec` and the frame of every instruction; out
of bounds it faults. -/
theorem drawTogglesTheSprite : Obligations.DrawTogglesTheSprite := by
  refine fun p x y n s => ⟨Laws.RoundTrip.drwVxVyN x y n p rfl, fun hb => ?_, exec_drwVxVyN_of_outOfBounds x y⟩
  obtain ⟨t, ht⟩ := exec_drwVxVyN_isNext x y hb
  exact ⟨t, ht, fun px py => cell_of_exec_drwVxVyN ht, fun px py => cell_of_exec_drwVxVyN_of_not_covers ht,
    flagReg_eq_one_of_lit ht, flagReg_eq_zero_of_unlit ht, onlyWrites_exec ht⟩

/-- The cells under a sprite depend on the memory and on I alone. -/
theorem spriteCovers_congr {s t : State} (hm : t.mem = s.mem) (hi : t.index = s.index) {x0 y0 : Byte} {n : Nat}
    {px : Fin 64} {py : Fin 32} : SpriteCovers t x0 y0 n px py ↔ SpriteCovers s x0 y0 n px py := by
  simp only [SpriteCovers, spriteBit, State.byteAt, State.dataBase, hm, hi]

theorem dataInBounds_congr {s t : State} (hi : t.index = s.index) {n : Nat} : DataInBounds t n ↔ DataInBounds s n := by
  simp only [DataInBounds, State.dataBase, hi]

/-- Settles O42: the first draw leaves the sprite and its place, so that the second covers the same cells and turns each over again. -/
theorem drawingTwiceRestoresTheScreen : Obligations.DrawingTwiceRestoresTheScreen := by
  intro x y n s t hx hy h
  have hreg (z : RegIdx) (hz : z ≠ flagReg) : t.reg z = s.reg z := onlyWrites_exec h (.reg z) (by simp [MayWrite, hz])
  have hindex : t.index = s.index := onlyWrites_exec h .index (by simp [MayWrite])
  have hmem : t.mem = s.mem := mem_of_exec_drwVxVyN h
  have hcovers (px : Fin 64) (py : Fin 32) :
      SpriteCovers t (t.reg x) (t.reg y) n.val px py ↔ SpriteCovers s (s.reg x) (s.reg y) n.val px py := by
    rw [hreg x hx, hreg y hy, spriteCovers_congr hmem hindex]
  have hb : DataInBounds t n.val := (dataInBounds_congr hindex).mpr (Classical.not_not.mp (not_faultCondition_of_exec h))
  obtain ⟨u, hu⟩ := exec_drwVxVyN_isNext x y hb
  refine ⟨u, hu, fun px py => ?_, fun ⟨px, py, hcov⟩ hunlit => ?_⟩
  · by_cases hcov : SpriteCovers s (s.reg x) (s.reg y) n.val px py
    · rw [cell_of_exec_drwVxVyN hu ((hcovers px py).mpr hcov), cell_of_exec_drwVxVyN h hcov, Bool.not_not]
    · rw [cell_of_exec_drwVxVyN_of_not_covers hu (mt (hcovers px py).mp hcov), cell_of_exec_drwVxVyN_of_not_covers h hcov]
  · have hlit : t.cell px py = true := by rw [cell_of_exec_drwVxVyN h hcov, hunlit px py hcov, Bool.not_false]
    exact flagReg_eq_one_of_lit hu ⟨px, py, (hcovers px py).mpr hcov, hlit⟩

end Sys2Proof.Machine
end

/-! SUPPORT. Bulk store and load (46_f_family.md R166, R167), and the fetch of what was stored (20_memory.md section 6). -/

section
namespace Sys2Proof.Machine

theorem State.bulkIndex_of_unchanged {s : State} (x : RegIdx) (h : s.config.indexIncrement = .unchanged) :
    s.bulkIndex x = s.index := by
  simp only [State.bulkIndex, h]

theorem State.bulkIndex_toNat_of_xPlus1 {s : State} (x : RegIdx) (h : s.config.indexIncrement = .xPlus1) :
    (s.bulkIndex x).toNat = (s.index.toNat + x.val + 1) % 65536 := by
  have hx : (BitVec.ofNat 16 (x.val + 1)).toNat = x.val + 1 := (BitVec.toNat_ofNat ..).trans (Nat.mod_eq_of_lt (by omega))
  simp only [State.bulkIndex, h]
  rw [BitVec.toNat_add, hx, Nat.add_assoc]

/-- The bytes I..I + X exist exactly if the last of them does. -/
theorem dataInBounds_bulk_iff {s : State} {x : RegIdx} : DataInBounds s (x.val + 1) ↔ s.index.toNat + x.val < 4096 := by
  simp only [DataInBounds, State.dataBase]; omega

theorem State.getElem_regsUpTo (s : State) {x j : RegIdx} (hj : j ≤ x) (h : j.val < (s.regsUpTo x).length) :
    (s.regsUpTo x)[j.val] = s.reg j := by
  have hget := s.regsUpTo_getD x j.val hj
  rwa [List.getD_eq_getElem?_getD, List.getElem?_eq_getElem h, Option.getD_some] at hget

/-- A bulk store leaves V[j] in the byte I + j (R166). -/
theorem byteAt_of_exec_ldMemVx {x j : RegIdx} {s t : State} (h : exec (.ldMemVx x) s = .next t) (hj : j ≤ x) :
    t.byteAt (s.index.toNat + j.val) = s.reg j := by
  obtain rfl := eq_of_exec_ldMemVx h
  have hlen : j.val < (s.regsUpTo x).length := by rw [State.regsUpTo_length]; exact Nat.lt_succ_of_le hj
  exact (s.byteAt_storeData hlen).trans (s.getElem_regsUpTo hj hlen)

/-- Settles O49: in bounds the form is a store and then a write of I by LOADSTORE_I_INCREMENT; out of bounds it faults. -/
theorem registerDumpStoresVZeroToVX : Obligations.RegisterDumpStoresVZeroToVX := by
  refine fun p x s => ⟨Laws.RoundTrip.ldMemVx x p rfl, fun hin => ?_, fun hout => ?_⟩
  · have he := exec_ldMemVx_of_inBounds (dataInBounds_bulk_iff.mpr hin)
    exact ⟨_, he, fun j hj => byteAt_of_exec_ldMemVx he hj, State.bulkIndex_of_unchanged x,
      State.bulkIndex_toNat_of_xPlus1 x, (onlyWrites_exec he).mono fun _ hl => hl.symm.imp_left And.right⟩
  · exact exec_ldMemVx_of_outOfBounds (mt dataInBounds_bulk_iff.mp (Nat.not_lt.mpr hout))

/-- A bulk load copies the byte I + j to V[j] (R167). -/
theorem reg_of_exec_ldVxMem {x j : RegIdx} {s t : State} (h : exec (.ldVxMem x) s = .next t) (hj : j ≤ x) :
    t.reg j = s.byteAt (s.index.toNat + j.val) := by
  obtain rfl := eq_of_exec_ldVxMem h
  exact (s.reg_loadData x j).trans (if_pos hj)

/-- Settles O50: in bounds the form is a load and then a write of I by LOADSTORE_I_INCREMENT; out of bounds it faults. -/
theorem registerLoadFillsVZeroToVX : Obligations.RegisterLoadFillsVZeroToVX := by
  refine fun p x s => ⟨Laws.RoundTrip.ldVxMem x p rfl, fun hin => ?_, fun hout => ?_⟩
  · have he := exec_ldVxMem_of_inBounds (dataInBounds_bulk_iff.mpr hin)
    exact ⟨_, he, fun j hj => reg_of_exec_ldVxMem he hj, State.bulkIndex_of_unchanged x,
      State.bulkIndex_toNat_of_xPlus1 x, (onlyWrites_exec he).mono fun _ hl => hl.symm.imp_left And.right⟩
  · exact exec_ldVxMem_of_outOfBounds (mt dataInBounds_bulk_iff.mp (Nat.not_lt.mpr hout))

/-- Settles O51: the load has the bounds of the store, and reads at I + j what the store left there. -/
theorem loadAfterDumpRestoresRegisters : Obligations.LoadAfterDumpRestoresRegisters := by
  intro x s t u hdump hmem hindex
  have hb : DataInBounds u (x.val + 1) :=
    (dataInBounds_congr hindex).mpr (dataInBounds_of_exec_ldMemVx hdump)
  have hload := exec_ldVxMem_of_inBounds hb
  refine ⟨_, hload, fun j hj => ?_⟩
  calc _ = u.byteAt (u.index.toNat + j.val) := reg_of_exec_ldVxMem hload hj
    _ = t.byteAt (s.index.toNat + j.val) := by rw [State.byteAt, State.byteAt, hmem, hindex]
    _ = s.reg j := byteAt_of_exec_ldMemVx hdump hj

/-- Settles O53: pc stays, and the bytes at pc and pc + 1 are those that hold V[j] and V[k]. -/
theorem fetchSeesTheStoredBytes : Obligations.FetchSeesTheStoredBytes := by
  intro x s t j k hdump hjk hk hat
  have hkx : k.val ≤ x.val := hk
  have hb : s.index.toNat + x.val < 4096 := dataInBounds_bulk_iff.mp (dataInBounds_of_exec_ldMemVx hdump)
  have hpc : t.pc = s.pc := onlyWrites_exec hdump .pc (by simp [MayWrite])
  have hj : t.byteAt s.pc.toNat = s.reg j := hat ▸ byteAt_of_exec_ldMemVx hdump (Fin.le_def.mpr (by omega))
  have hnext : t.byteAt (s.pc.toNat + 1) = s.reg k := by
    rw [hat, Nat.add_assoc, hjk]
    exact byteAt_of_exec_ldMemVx hdump hk
  calc fetch t = .ok (t.wordAt s.pc.toNat) := hpc ▸ fetch_of_inBounds (by rw [hpc]; omega)
    _ = .ok (s.reg j ++ s.reg k) := by rw [State.wordAt, hj, hnext, wordOfBytes]

end Sys2Proof.Machine
end

/-! SUPPORT. Load program and set key state (70_reset_and_hazards.md R232; 60_exceptions.md R199). -/

section
namespace Sys2Proof.Machine

/-- A loaded image lies at 0x200 and up (R232). -/
theorem State.byteAt_load (s : State) {image : List Byte} {j : Nat} (h : j < image.length) :
    (s.load image).byteAt (0x200 + j) = image[j] := by
  have hin : 0x200 ≤ 0x200 + j ∧ 0x200 + j < 0x200 + image.length := by omega
  calc (s.load image).byteAt (0x200 + j) = (s.mem.writeList 0x200 image).read (0x200 + j) := rfl
    _ = image.getD (0x200 + j - 0x200) 0 := by rw [Memory.read_writeList, if_pos hin]
    _ = image[j] := by
      rw [Nat.add_sub_cancel_left, List.getD_eq_getElem?_getD, List.getElem?_eq_getElem h, Option.getD_some]

theorem onlyWrites_load (s : State) (image : List Byte) :
    OnlyWrites s (s.load image) (fun l => ∃ a, 0x200 ≤ a ∧ a < 0x200 + image.length ∧ l = .byte a) := by
  refine onlyWrites_setMem s _ fun a => ?_
  by_cases hin : 0x200 ≤ a ∧ a < 0x200 + image.length
  · exact .inr ⟨a, hin.1, hin.2, rfl⟩
  · exact .inl ((Memory.read_writeList ..).trans (if_neg hin))

/-- Settles O56: an image fits exactly if it has at most 3584 bytes; then it is stored, and else the state is answered as it was. -/
theorem loadProgramCopiesOrRejects : Obligations.LoadProgramCopiesOrRejects := by
  refine fun s image hs => ⟨fun hfit => ⟨s.load image, ?_, fun j h => s.byteAt_load h, onlyWrites_load s image⟩,
    fun hlarge => ?_⟩
  · calc hostCall (.loadProgram image) s = .ok (s.hostLoad image) := hostCall_of_running _ hs
      _ = .ok (s.load image, .ok) := by rw [State.hostLoad_of_fits (by omega)]
  · calc hostCall (.loadProgram image) s = .ok (s.hostLoad image) := hostCall_of_running _ hs
      _ = .ok (s, .loadTooLarge) := by rw [State.hostLoad_of_tooLarge (by omega)]

theorem onlyWrites_setKey (s : State) (k : Fin 16) (b : Bool) : OnlyWrites s (s.setKey k b) (fun l => l = .key k) := by
  intro l hl
  cases l with
  | key j =>
    have hne : k.val ≠ j.val := fun e => hl (congrArg Loc.key (Fin.ext e.symm))
    exact Vector.getElem_set_ne k.isLt j.isLt hne
  | _ => rfl

/-- Settles O57: an index in range is the key that is set, any other is refused. -/
theorem setKeyStateSetsOneKey : Obligations.SetKeyStateSetsOneKey := by
  refine fun s n b hs => ⟨?_, fun hn => ?_⟩
  · rintro k rfl
    exact ⟨s.setKey k b, hostCall_setKeyState k b hs, s.key_setKey_self k b, onlyWrites_setKey s k b⟩
  · exact (hostCall_of_running _ hs).trans (dif_neg (Nat.not_lt.mpr hn))

end Sys2Proof.Machine
end
